-- ==== Sys2Proof/Word.lean ====
section
/-! DEFINITION. The words of the engine: the 8-bit element (00_scope.md R6), the 16-bit exponent of POW (R9) and the
32-bit command and response word (R11). -/
namespace Sys2Proof

/-- A field element, catalog index, table entry or exponent index: 8 bits, bit `i` the coefficient of `x^i`
(00_scope.md R6; 20_memory.md R201). -/
abbrev Byte := BitVec 8

/-- POW's exponent operand `n`: 16 bits, unsigned (00_scope.md R9). -/
abbrev Half := BitVec 16

/-- A command word or a response data word: 32 bits (00_scope.md R11; 30_encoding.md R301). -/
abbrev Word := BitVec 32

end Sys2Proof
end

