-- ==== Sys2Proof/Config.lean ====
section
/-! DEFINITION. What an implementation of the engine fixes: the spec's two OPEN parameters, `CATALOG` (00_scope.md R8) and
`POW_ZERO_ZERO` (R10), as one plain record. `Machine.State` carries such a record, so a statement about every state is a
statement about every catalog and both values of `POW_ZERO_ZERO`. `Config.reference` is the spec's `REF_CATALOG`. -/
namespace Sys2Proof

/-- `N_CATALOG = 30` (00_scope.md R7). -/
abbrev nCatalog : Nat := 30

/-- One entry `(value_k, gen_k)` of the catalog ROM: the modulus's 9-bit coefficient vector with its leading bit, and the
catalog's generator for it (00_scope.md R8; 20_memory.md R206, R210). -/
structure CatEntry where
  /-- `CatValue(k)`: bit 8 is the coefficient of `x^8` (20_memory.md R201). -/
  value : BitVec 9
  /-- `CatGen(k)`. -/
  gen : Byte
  deriving DecidableEq, Repr

/-- `CatValue(k)[7:0]`, the low part of the modulus, the `m` of `clmul8` (40_catalog_clmul.md R401). -/
def CatEntry.low (e : CatEntry) : Byte := e.value.setWidth 8

/-- The parameters of the engine (00_scope.md R8, R10, R12: there are no others). -/
structure Config where
  /-- `CATALOG`, entry `k` at position `k`, counted from 0 (30_encoding.md R306). -/
  catalog : Vector CatEntry nCatalog
  /-- Whether `POW_ZERO_ZERO` is 0x01 (true) or 0x00 (false, the default): the only two values R10 allows. -/
  powZeroZeroIsOne : Bool
  deriving DecidableEq, Repr

/-- `POW_ZERO_ZERO` (00_scope.md R10; 42_field_ops.md R453). -/
def Config.powZeroZero (c : Config) : Byte := if c.powZeroZeroIsOne then 0x01 else 0x00

/-- `REF_CATALOG` of 92_eei_decisions.md D7, "for test vectors only", with the default `POW_ZERO_ZERO` of 00_scope.md R10.
DESIGN CHOICE (log entry 1): `State.reset` holds it; no statement rests on it. -/
def Config.reference : Config where
  catalog := #v[
    ⟨0x11b, 0x03⟩, ⟨0x11d, 0x02⟩, ⟨0x12b, 0x02⟩, ⟨0x12d, 0x02⟩, ⟨0x139, 0x03⟩,
    ⟨0x13f, 0x03⟩, ⟨0x14d, 0x02⟩, ⟨0x15f, 0x02⟩, ⟨0x163, 0x02⟩, ⟨0x165, 0x02⟩,
    ⟨0x169, 0x02⟩, ⟨0x171, 0x02⟩, ⟨0x177, 0x03⟩, ⟨0x17b, 0x09⟩, ⟨0x187, 0x02⟩,
    ⟨0x18b, 0x06⟩, ⟨0x18d, 0x02⟩, ⟨0x19f, 0x03⟩, ⟨0x1a3, 0x03⟩, ⟨0x1a9, 0x02⟩,
    ⟨0x1b1, 0x06⟩, ⟨0x1bd, 0x07⟩, ⟨0x1c3, 0x02⟩, ⟨0x1cf, 0x02⟩, ⟨0x1d7, 0x07⟩,
    ⟨0x1dd, 0x06⟩, ⟨0x1e7, 0x02⟩, ⟨0x1f3, 0x06⟩, ⟨0x1f5, 0x02⟩, ⟨0x1f9, 0x03⟩]
  powZeroZeroIsOne := false

end Sys2Proof
end

