-- ==== Sys2Proof/Machine/Clmul.lean ====
section
/-! DEFINITION. The carry-less multiplier, `clmul8` (40_catalog_clmul.md R401), and the powers of a catalog entry's generator
in its field `F_k` (00_scope.md R15). It reads no state. -/
namespace Sys2Proof.Machine

/-- One shift of the multiplicand: bit 7 is tested before the shift, and the modulus's low bits are XORed into the shifted
value (40_catalog_clmul.md R401; 91_not_in_source.md N4). It is multiplication by `x` modulo `0x100 | m`. -/
def timesX (x m : Byte) : Byte := if x.getLsbD 7 then (x <<< 1) ^^^ m else x <<< 1

/-- The pair `(acc, x)` of the loop of 40_catalog_clmul.md R401 after its first `k` iterations (`k` = 0..8). -/
def clmulLoop (a b m : Byte) : Nat → Byte × Byte
  | 0 => (0x00, a)
  | k + 1 =>
    let p := clmulLoop a b m k
    (if b.getLsbD k then p.1 ^^^ p.2 else p.1, timesX p.2 m)

/-- `clmul8(a, b, m)` (40_catalog_clmul.md R401). -/
def clmul8 (a b m : Byte) : Byte := (clmulLoop a b m 8).1

/-- `gen_k ^ i` in `F_k`, with `gen_k ^ 0 = 0x01` (00_scope.md R15). -/
def genPow (e : CatEntry) : Nat → Byte
  | 0 => 0x01
  | i + 1 => clmul8 (genPow e i) e.gen e.low

end Sys2Proof.Machine
end

