-- ==== Sys2Proof/Syntax.lean ====
section
/-! DEFINITION. The commands of the engine, one constructor for each row of spec/opcode_table.json (30_encoding.md R305). The
operands are exactly the fields of the row's format (R302, R303, R304), at their widths, so every term is encodable. -/
namespace Sys2Proof

/-- The fifteen commands. `a`, `b` are field elements, `k` a catalog index, `i` an exponent index, `n` an exponent. An index
`k` in 30..255 is encodable: its command raises `Fatal(INVALID_INDEX)` (30_encoding.md R306). -/
inductive Instr where
  /-- `build k`: construct the tables of catalog entry `k` (41_build.md R421). -/
  | build (k : Byte)
  /-- `add a, b` (42_field_ops.md R441). -/
  | add (a b : Byte)
  /-- `sub a, b` (42_field_ops.md R442). -/
  | sub (a b : Byte)
  /-- `mul a, b` (42_field_ops.md R443). -/
  | mul (a b : Byte)
  /-- `div a, b`: dividend `a`, divisor `b` (42_field_ops.md R446). -/
  | div (a b : Byte)
  /-- `inv a` (42_field_ops.md R448). -/
  | inv (a : Byte)
  /-- `pow a, n` (42_field_ops.md R450). -/
  | pow (a : Byte) (n : Half)
  /-- `log a` (42_field_ops.md R456). -/
  | log (a : Byte)
  /-- `exp i` (42_field_ops.md R460). -/
  | exp (i : Byte)
  /-- `clmul a, b, k` (40_catalog_clmul.md R402). -/
  | clmul (a b k : Byte)
  /-- `qsel` (43_query.md R481). -/
  | qsel
  /-- `catval k` (40_catalog_clmul.md R403). -/
  | catval (k : Byte)
  /-- `catgen k` (40_catalog_clmul.md R404). -/
  | catgen (k : Byte)
  /-- `qstat` (43_query.md R482). -/
  | qstat
  /-- `qfcmd` (43_query.md R483). -/
  | qfcmd
  deriving DecidableEq, Repr

end Sys2Proof
end

