-- ==== Sys2Proof/Decode.lean ====
section
/-! DEFINITION. Decoding a command word, total on all 2^32 words and rejecting by name (30_encoding.md R301 to R313), the
encoder written from the same tables, and words as bytes (20_memory.md R202). -/
namespace Sys2Proof

/-! ## Fields of the command word (30_encoding.md R302) -/

/-- `OP = w[3:0]`. -/
def fieldOP (w : Word) : BitVec 4 := w.extractLsb' 0 4
/-- `RSV = w[7:4]`, a zero field in every format. -/
def fieldRSV (w : Word) : BitVec 4 := w.extractLsb' 4 4
/-- `A = w[15:8]`. -/
def fieldA (w : Word) : Byte := w.extractLsb' 8 8
/-- `B = w[23:16]`. -/
def fieldB (w : Word) : Byte := w.extractLsb' 16 8
/-- `C = w[31:24]`. -/
def fieldC (w : Word) : Byte := w.extractLsb' 24 8
/-- `N = w[31:16]`, over the bits of `B` and `C`. -/
def fieldN (w : Word) : Half := w.extractLsb' 16 16

/-! ## Formats (30_encoding.md R303) -/

/-- The five formats. -/
inductive Format where
  /-- no operand -/
  | N
  /-- one operand, `A` -/
  | U
  /-- two operands, `A` and `B` -/
  | R
  /-- three operands, `A`, `B` and `C` -/
  | T
  /-- `A` and the exponent `N` -/
  | P
  deriving DecidableEq, Repr

/-- The mask of checked bits of a format: `OP` and the format's zero bits. -/
def Format.mask : Format → Word
  | .N => 0xFFFFFFFF
  | .U => 0xFFFF00FF
  | .R => 0xFF0000FF
  | .T => 0x000000FF
  | .P => 0x000000FF

/-! ## The opcode map (30_encoding.md R305) -/

/-- The row of an opcode: its format and the command its word stands for. `0x0` is the one opcode without a row. -/
def opcodeRow (op : BitVec 4) : Option (Format × (Word → Instr)) :=
  match op with
  | 0x1#4 => some (.U, fun w => .build (fieldA w))
  | 0x2#4 => some (.R, fun w => .add (fieldA w) (fieldB w))
  | 0x3#4 => some (.R, fun w => .sub (fieldA w) (fieldB w))
  | 0x4#4 => some (.R, fun w => .mul (fieldA w) (fieldB w))
  | 0x5#4 => some (.R, fun w => .div (fieldA w) (fieldB w))
  | 0x6#4 => some (.U, fun w => .inv (fieldA w))
  | 0x7#4 => some (.P, fun w => .pow (fieldA w) (fieldN w))
  | 0x8#4 => some (.U, fun w => .log (fieldA w))
  | 0x9#4 => some (.U, fun w => .exp (fieldA w))
  | 0xA#4 => some (.T, fun w => .clmul (fieldA w) (fieldB w) (fieldC w))
  | 0xB#4 => some (.N, fun _ => .qsel)
  | 0xC#4 => some (.U, fun w => .catval (fieldA w))
  | 0xD#4 => some (.U, fun w => .catgen (fieldA w))
  | 0xE#4 => some (.N, fun _ => .qstat)
  | 0xF#4 => some (.N, fun _ => .qfcmd)
  | _ => none

/-! ## Decoding (30_encoding.md R310 to R313) -/

/-- Why a word is no command. -/
inductive DecodeError where
  /-- `OP = 0x0` (30_encoding.md R311). -/
  | illegalOpcode
  /-- an assigned opcode with a 1 in a zero bit of its format (30_encoding.md R312). -/
  | reservedBits
  deriving DecidableEq, Repr

/-- The command a word stands for. The opcode is tested before the zero bits (30_encoding.md R310). -/
def decodeWord (w : Word) : Except DecodeError Instr :=
  match opcodeRow (fieldOP w) with
  | none => .error .illegalOpcode
  | some (f, command) =>
    if w &&& f.mask = (fieldOP w).setWidth 32 then .ok (command w) else .error .reservedBits

/-! ## Encoding (30_encoding.md R303) -/

/-- The word `{C, B, A, 0x0, OP}`. -/
def layout (c b a : Byte) (op : BitVec 4) : Word := c ++ b ++ a ++ 0x0#4 ++ op

/-- Format N: `{0x000000, 0x0, OP}`. -/
def wordN (op : BitVec 4) : Word := layout 0 0 0 op
/-- Format U: `{0x0000, A, 0x0, OP}`. -/
def wordU (a : Byte) (op : BitVec 4) : Word := layout 0 0 a op
/-- Format R: `{0x00, B, A, 0x0, OP}`. -/
def wordR (a b : Byte) (op : BitVec 4) : Word := layout 0 b a op
/-- Format T: `{C, B, A, 0x0, OP}`. -/
def wordT (a b c : Byte) (op : BitVec 4) : Word := layout c b a op
/-- Format P: `{N, A, 0x0, OP}`. -/
def wordP (a : Byte) (n : Half) (op : BitVec 4) : Word := n ++ a ++ 0x0#4 ++ op

/-- The word of a command (30_encoding.md R303, R305). Every bit of it is fixed by the command. -/
def encode : Instr → Word
  | .build k => wordU k 0x1
  | .add a b => wordR a b 0x2
  | .sub a b => wordR a b 0x3
  | .mul a b => wordR a b 0x4
  | .div a b => wordR a b 0x5
  | .inv a => wordU a 0x6
  | .pow a n => wordP a n 0x7
  | .log a => wordU a 0x8
  | .exp i => wordU i 0x9
  | .clmul a b k => wordT a b k 0xA
  | .qsel => wordN 0xB
  | .catval k => wordU k 0xC
  | .catgen k => wordU k 0xD
  | .qstat => wordN 0xE
  | .qfcmd => wordN 0xF

/-! ## Words as bytes (20_memory.md R202) -/

/-- Byte `j` of a word is `word[8j+7:8j]`. -/
def byteOf (w : Word) (j : Nat) : Byte := w.extractLsb' (8 * j) 8

/-- A word as a byte sequence, byte 0 first (little-endian). -/
def bytesOfWord (w : Word) : List Byte := [byteOf w 0, byteOf w 1, byteOf w 2, byteOf w 3]

/-- The word a byte sequence carries: exactly four bytes (30_encoding.md R301: no command has another length). -/
def wordOfBytes : List Byte → Option Word
  | [b0, b1, b2, b3] => some (b3 ++ b2 ++ b1 ++ b0)
  | _ => none

/-- The command a sequence of bytes carries; a sequence that is no whole word carries none. -/
def decodeBytes (bs : List Byte) : Option (Except DecodeError Instr) := (wordOfBytes bs).map decodeWord

/-- The command the decoder reads from an instruction whose bits are `w`, numbered as spec/opcode_table.json numbers them
(bit 0 the least significant). Every row has `nbits = 32`; a shorter one has its upper bits 0. -/
def decodeTableWord (nbits w : Nat) : Option Instr :=
  if nbits ≤ 32 then
    match decodeBytes (bytesOfWord (BitVec.ofNat 32 (w % 2 ^ nbits))) with
    | some (.ok i) => some i
    | some (.error _) => none
    | none => none
  else none

end Sys2Proof
end

