-- ==== Sys2Proof/Machine/State.lean ====
section
/-! DEFINITION. The state of the engine, as plain data: the architectural state of 10_state.md R102, the pending response
(30_encoding.md R320, R331), what the host puts on the input ports (30_encoding.md R300), and the engine's parameters. -/
namespace Sys2Proof.Machine

/-- `STATE` (10_state.md R103). Code 3 is never held, so it has no member. -/
inductive EngineState where
  /-- no field has been built since reset -/
  | empty
  /-- a field is built: its selector is in `SEL`, its tables in `ANTILOG` and `LOG` -/
  | ready
  /-- a fatal failure has occurred -/
  | fault
  deriving DecidableEq, Repr

/-- `FAULT_CAUSE` (10_state.md R105). Codes 0x6 to 0xF are never written, so they have no member. -/
inductive FaultCause where
  /-- 0x0 `NONE` -/
  | noCause
  /-- 0x1 `ILLEGAL_OPCODE` -/
  | illegalOpcode
  /-- 0x2 `RESERVED_BITS` -/
  | reservedBits
  /-- 0x3 `INVALID_INDEX` -/
  | invalidIndex
  /-- 0x4 `NOT_READY` -/
  | notReady
  /-- 0x5 `EXP_RANGE`, reserved: no command can raise it (42_field_ops.md R462) -/
  | expRange
  deriving DecidableEq, Repr

/-- `rsp_status` (30_encoding.md R321). -/
inductive Status where
  /-- 0 `OK` -/
  | ok
  /-- 1 `UNDEFINED` -/
  | undefined
  /-- 2 `DIV_BY_ZERO` -/
  | divByZero
  /-- 3 `FATAL` -/
  | fatal
  deriving DecidableEq, Repr

/-- A response: a status and a data word (30_encoding.md R320). -/
structure Response where
  /-- `rsp_status` -/
  status : Status
  /-- `rsp_data` -/
  data : Word
  deriving DecidableEq, Repr

/-- `rst` during one step (30_encoding.md R300; 70_reset_and_hazards.md R700, R702). -/
inductive RstInput where
  /-- `rst` is 0 throughout -/
  | released
  /-- `rst` is 1 from the start: no command is accepted -/
  | asserted
  /-- `rst` rises while the command accepted in this step is in progress. For a BUILD, `progress` of the 255 walk iterations and
  then of the 255 copy iterations of 41_build.md R421 have been done -/
  | duringCommand (progress : Nat)
  deriving DecidableEq, Repr

/-- What the engine's input ports carry during one step (30_encoding.md R300). -/
structure HostInput where
  /-- `rst` -/
  rst : RstInput
  /-- `cmd_data` when `cmd_valid` is 1, none when it is 0 -/
  cmd : Option Word
  /-- `rsp_ready` -/
  rspReady : Bool
  deriving DecidableEq, Repr

/-- A table memory: its entries as (index, byte) pairs, indices strictly rising, none equal to what an unlisted index reads as
(`Memory.wf` in Machine/Ops.lean). -/
abbrev Memory := List Host.Cell

/-- The state of the engine. -/
structure State where
  /-- `STATE` (10_state.md R103) -/
  state : EngineState
  /-- `SEL` (10_state.md R104) -/
  sel : Byte
  /-- `FAULT_CAUSE` (10_state.md R105) -/
  faultCause : FaultCause
  /-- `FAULT_CMD` (10_state.md R106) -/
  faultCmd : Word
  /-- `ANTILOG`, 512 entries (10_state.md R107) -/
  antilog : Memory
  /-- `LOG`, 256 entries (10_state.md R108) -/
  log : Memory
  /-- `BUSY`, hidden (10_state.md R113) -/
  busy : Bool
  /-- the response waiting for `rsp_ready`, if any (30_encoding.md R331) -/
  pending : Option Response
  /-- what the input ports carry during the coming steps, the next step's first (log entry 4) -/
  inputs : List HostInput
  /-- the engine's parameters, constant (00_scope.md R8, R10; log entry 1); no step writes them -/
  config : Config
  deriving DecidableEq, Repr

/-- The model's faults. It has none: every failure the spec describes is a response and a next state (60_exceptions.md R600 to
R612), and no command forms an index outside its table (20_memory.md R203, R204). -/
inductive Fault where
  deriving DecidableEq, Repr

/-- The model's refusals. -/
inductive Refusal where
  /-- Raised by `exec`'s arm of a command that has no meaning yet; no arm raises it. Safe: the machine stops where the hardware
  goes on. -/
  | notModelled (mnemonic : String)
  deriving DecidableEq, Repr

/-- The engine right after reset, with its parameters given: the values of 70_reset_and_hazards.md R701. The tables are
unspecified there; here every entry reads 0x00 (DESIGN CHOICE, log entry 2). -/
def State.resetWith (c : Config) : State where
  state := .empty
  sel := 0x00
  faultCause := .noCause
  faultCmd := 0x00000000
  antilog := []
  log := []
  busy := false
  pending := none
  inputs := []
  config := c

/-- The engine right after reset, holding `REF_CATALOG` (DESIGN CHOICE, log entry 1). -/
def State.reset : State := State.resetWith Config.reference

/-- The outcome of a step of the engine. -/
abbrev Out := Host.Outcome State Fault Refusal

end Sys2Proof.Machine
end

