-- ==== Sys2Proof/Machine/Flags.lean ====
section
/-! DEFINITION. The engine stores no flags (10_state.md R112); what a command reports is its status. Here: the numeric codes of
`STATE`, `FAULT_CAUSE` and the response status, and the word QSTAT returns. -/
namespace Sys2Proof.Machine

/-- The 2-bit code of `STATE` (10_state.md R103). -/
def EngineState.code : EngineState → BitVec 2
  | .empty => 0
  | .ready => 1
  | .fault => 2

/-- The 4-bit code of `FAULT_CAUSE` (10_state.md R105). -/
def FaultCause.code : FaultCause → BitVec 4
  | .noCause => 0x0
  | .illegalOpcode => 0x1
  | .reservedBits => 0x2
  | .invalidIndex => 0x3
  | .notReady => 0x4
  | .expRange => 0x5

/-- The 2-bit code of a response status (30_encoding.md R321). -/
def Status.code : Status → BitVec 2
  | .ok => 0
  | .undefined => 1
  | .divByZero => 2
  | .fatal => 3

/-- `zext_32(v)` (00_scope.md R13). -/
def zext32 {n : Nat} (v : BitVec n) : Word := v.setWidth 32

/-- The data of a FATAL response: `zext_32(FAULT_CAUSE)` (30_encoding.md R322). -/
def causeData (s : State) : Word := zext32 s.faultCause.code

/-- `{0x0000, SEL, FAULT_CAUSE, 0b00, STATE}` (43_query.md R482). -/
def statusData (s : State) : Word := 0x0000#16 ++ s.sel ++ s.faultCause.code ++ 0b00#2 ++ s.state.code

end Sys2Proof.Machine
end

