-- ==== Sys2Proof/Machine/Operands.lean ====
section
/-! DEFINITION. Operand forms: the catalog index (30_encoding.md R306) and the table indices the field operations form from
logarithms, exact natural numbers before any `mod` (00_scope.md R13; 42_field_ops.md R472). -/
namespace Sys2Proof.Machine

/-- Catalog ROM entry `k`, for a valid index `k < N_CATALOG`; none for the encodable but invalid 30..255 (30_encoding.md R306;
20_memory.md R210). -/
def catalogEntry (c : Config) (k : Byte) : Option CatEntry :=
  if h : k.toNat < nCatalog then some (c.catalog[k.toNat]'h) else none

/-- MUL's index `LOG[a] + LOG[b]` (42_field_ops.md R443). -/
def mulIndex (la lb : Byte) : Nat := la.toNat + lb.toNat

/-- DIV's index `(LOG[a] + 255 - LOG[b]) mod 255` (42_field_ops.md R446). -/
def divIndex (la lb : Byte) : Nat := (la.toNat + 255 - lb.toNat) % 255

/-- INV's index `255 - LOG[a]` (42_field_ops.md R448). -/
def invIndex (la : Byte) : Nat := 255 - la.toNat

/-- POW's index `(LOG[a] * n) mod 255`, the product exact (42_field_ops.md R450, R452). -/
def powIndex (la : Byte) (n : Half) : Nat := (la.toNat * n.toNat) % 255

end Sys2Proof.Machine
end

