-- ==== Sys2Proof/Machine/Ops.lean ====
section
/-! DEFINITION. The named operations: reads and writes of the table memories, the writes of each register, the response, the
two failures (recoverable and fatal), the refusal in FAULT, the shared shape of a field operation and of a catalog operation,
and reset. -/
namespace Sys2Proof.Machine

/-! ## Table memories (20_memory.md R203, R204, R206) -/

/-- Entries of the antilog table (00_scope.md R11). -/
abbrev antilogSize : Nat := 512
/-- Entries of the log table (00_scope.md R11). -/
abbrev logSize : Nat := 256

/-- What an unlisted entry reads as (DESIGN CHOICE, log entry 2: the spec leaves it unspecified). -/
def Memory.unlisted : Byte := 0x00

/-- A read of entry `i`: one whole byte. -/
def Memory.read : Memory → Nat → Byte
  | [], _ => Memory.unlisted
  | (j, u) :: rest, i => if j = i then u else Memory.read rest i

/-- A write of `v` to entry `i`, keeping the canonical form. -/
def Memory.write : Memory → Nat → Byte → Memory
  | [], i, v => if v = Memory.unlisted then [] else [(i, v)]
  | (j, u) :: rest, i, v =>
    if j < i then (j, u) :: Memory.write rest i v
    else if j = i then (if v = Memory.unlisted then rest else (i, v) :: rest)
    else (if v = Memory.unlisted then (j, u) :: rest else (i, v) :: (j, u) :: rest)

/-- The canonical form of a table of `size` entries: indices strictly rising and inside the table, no entry equal to what an
unlisted index reads as. -/
abbrev Memory.wf (size : Nat) (m : Memory) : Prop :=
  m.Pairwise (fun c d => c.1 < d.1) ∧ ∀ c ∈ m, c.1 < size ∧ c.2 ≠ Memory.unlisted

/-! ## Register writes -/

/-- The response port offers `r`, or nothing. -/
def State.setPending (s : State) (r : Option Response) : State := { s with pending := r }
/-- `BUSY <- b`. -/
def State.setBusy (s : State) (b : Bool) : State := { s with busy := b }
/-- `ANTILOG` and `LOG` after BUILD's writes. -/
def State.setTables (s : State) (antilog log : Memory) : State := { s with antilog := antilog, log := log }
/-- `SEL <- k; STATE <- READY` (41_build.md R421). -/
def State.setField (s : State) (k : Byte) : State := { s with sel := k, state := .ready }
/-- `FAULT_CAUSE <- cause; FAULT_CMD <- w; STATE <- FAULT` (60_exceptions.md R610). -/
def State.setFault (s : State) (cause : FaultCause) (w : Word) : State :=
  { s with faultCause := cause, faultCmd := w, state := .fault }
/-- The input samples still to come. -/
def State.setInputs (s : State) (l : List HostInput) : State := { s with inputs := l }

/-! ## Responses and failures -/

/-- `respond(status, data)`: the command's one response (30_encoding.md R320). -/
def respond (status : Status) (data : Word) (s : State) : State := s.setPending (some ⟨status, data⟩)

/-- `fail(status)`: a recoverable failure, data 0 and no other state change (60_exceptions.md R603). -/
def failWith (status : Status) (s : State) : State := respond status 0x00000000 s

/-- Entering the fault state for the command word `w`: the first cause and word are kept (60_exceptions.md R610). -/
def enterFault (cause : FaultCause) (w : Word) (s : State) : State :=
  if s.state = .fault then s else s.setFault cause w

/-- `raise Fatal(cause)` for the command word `w` (60_exceptions.md R610). -/
def raiseFatal (cause : FaultCause) (w : Word) (s : State) : State :=
  respond .fatal (causeData (enterFault cause w s)) (enterFault cause w s)

/-- Refusal of a command in FAULT (60_exceptions.md R612). -/
def refuseInFault (s : State) : State := respond .fatal (causeData s) s

/-! ## The two shapes of a command -/

/-- A field operation with command word `w` (42_field_ops.md R440): refused in FAULT, `Fatal(NOT_READY)` in EMPTY, and in READY
the state `result`. -/
def fieldOp (w : Word) (s : State) (result : State) : Out :=
  match s.state with
  | .fault => .next (refuseInFault s)
  | .empty => .next (raiseFatal .notReady w s)
  | .ready => .next result

/-- A command on catalog entry `k` with command word `w` (40_catalog_clmul.md R400; 41_build.md R421): refused in FAULT,
`Fatal(INVALID_INDEX)` when `k >= N_CATALOG`, before any ROM read, and otherwise `result` of the entry. -/
def catalogOp (w : Word) (k : Byte) (s : State) (result : CatEntry → State) : Out :=
  match s.state, catalogEntry s.config k with
  | .fault, _ => .next (refuseInFault s)
  | .empty, some e => .next (result e)
  | .ready, some e => .next (result e)
  | .empty, none => .next (raiseFatal .invalidIndex w s)
  | .ready, none => .next (raiseFatal .invalidIndex w s)

/-! ## Reset (70_reset_and_hazards.md R700 to R702) -/

/-- While `rst` is asserted: every register at its reset value, the command in progress and the pending response discarded. The
tables, unspecified there, keep their contents (DESIGN CHOICE, log entry 3); the parameters are constant. -/
def applyReset (s : State) : State :=
  { s with state := .empty, sel := 0x00, faultCause := .noCause, faultCmd := 0x00000000, busy := false, pending := none }

end Sys2Proof.Machine
end

