-- ==== Sys2Proof/Machine/Build.lean ====
section
/-! DEFINITION. BUILD, the antilog/log table constructor (41_build.md). -/
namespace Sys2Proof.Machine

/-- What BUILD's first loop carries: the two tables and `cur`. -/
structure Walk where
  /-- `ANTILOG` so far -/
  antilog : Memory
  /-- `LOG` so far -/
  log : Memory
  /-- `cur` -/
  cur : Byte
  deriving DecidableEq, Repr

/-- Iteration `i` of the first loop: record `cur` at the next antilog slot, record its inverse mapping, advance `cur`
(41_build.md R421). -/
def walkStep (e : CatEntry) (i : Nat) (p : Walk) : Walk where
  antilog := p.antilog.write i p.cur
  log := p.log.write p.cur.toNat (BitVec.ofNat 8 i)
  cur := clmul8 p.cur e.gen e.low

/-- The first `n` iterations of the first loop, `i` = 0..n-1, from `cur = 0x01`. -/
def walk (e : CatEntry) (antilog log : Memory) : Nat → Walk
  | 0 => ⟨antilog, log, 0x01⟩
  | n + 1 => walkStep e n (walk e antilog log n)

/-- The first `n` iterations of the second loop, `i` = 255..254+n: `ANTILOG[i] <- ANTILOG[i - 255]` (41_build.md R421). -/
def copyBack (m : Memory) : Nat → Memory
  | 0 => m
  | n + 1 => (copyBack m n).write (255 + n) ((copyBack m n).read n)

/-- `ANTILOG` after BUILD of the entry. -/
@[irreducible] def builtAntilog (e : CatEntry) (s : State) : Memory := copyBack (walk e s.antilog s.log 255).antilog 255

/-- `LOG` after BUILD of the entry. -/
@[irreducible] def builtLog (e : CatEntry) (s : State) : Memory := (walk e s.antilog s.log 255).log

/-- The tables of a BUILD of the entry that reset cuts short after `progress` loop iterations (70_reset_and_hazards.md R702): the
walk's first, then the copy loop's. -/
@[irreducible] def partialBuild (e : CatEntry) (progress : Nat) (s : State) : State :=
  s.setTables (copyBack (walk e s.antilog s.log (min progress 255)).antilog (min (progress - 255) 255))
    (walk e s.antilog s.log (min progress 255)).log

/-- The body of BUILD for a valid index `k` (41_build.md R421): BUSY up, the tables, SEL and STATE, BUSY down. -/
def buildField (k : Byte) (e : CatEntry) (s : State) : State :=
  ((((s.setBusy true).setTables (builtAntilog e s) (builtLog e s)).setField k).setBusy false)

/-- BUILD (41_build.md R421). -/
def execBuild (k : Byte) (s : State) : Out :=
  catalogOp (encode (.build k)) k s fun e => respond .ok 0x00000000 (buildField k e s)

end Sys2Proof.Machine
end

