-- ==== Sys2Proof/Machine/Catalog.lean ====
section
/-! DEFINITION. The catalog operations: CLMUL, CATVAL and CATGEN (40_catalog_clmul.md R400 to R404). -/
namespace Sys2Proof.Machine

/-- CLMUL (40_catalog_clmul.md R402). -/
def execClmul (a b k : Byte) (s : State) : Out :=
  catalogOp (encode (.clmul a b k)) k s fun e => respond .ok (zext32 (clmul8 a b e.low)) s

/-- CATVAL (40_catalog_clmul.md R403): all nine bits. -/
def execCatval (k : Byte) (s : State) : Out :=
  catalogOp (encode (.catval k)) k s fun e => respond .ok (zext32 e.value) s

/-- CATGEN (40_catalog_clmul.md R404). -/
def execCatgen (k : Byte) (s : State) : Out :=
  catalogOp (encode (.catgen k)) k s fun e => respond .ok (zext32 e.gen) s

end Sys2Proof.Machine
end

