-- ==== Sys2Proof/Machine/FieldOps.lean ====
section
/-! DEFINITION. The field operations, by table lookup: ADD, SUB, MUL, DIV, INV, POW, LOG and EXP (42_field_ops.md R440 to R462).
Each computes from the tables and its operands only, and writes nothing but its response. -/
namespace Sys2Proof.Machine

/-- `LOG[a]`, a read of the log table at a field element (20_memory.md R204). -/
def logOf (s : State) (a : Byte) : Byte := s.log.read a.toNat

/-- MUL's result (42_field_ops.md R443). -/
def fieldMul (s : State) (a b : Byte) : Byte :=
  if a = 0x00 ∨ b = 0x00 then 0x00 else s.antilog.read (mulIndex (logOf s a) (logOf s b))

/-- DIV's result for a nonzero divisor (42_field_ops.md R446). -/
def fieldDiv (s : State) (a b : Byte) : Byte :=
  if a = 0x00 then 0x00 else s.antilog.read (divIndex (logOf s a) (logOf s b))

/-- INV's result for a nonzero operand (42_field_ops.md R448). -/
def fieldInv (s : State) (a : Byte) : Byte := s.antilog.read (invIndex (logOf s a))

/-- POW's result (42_field_ops.md R450, R453). -/
def fieldPow (s : State) (a : Byte) (n : Half) : Byte :=
  if a = 0x00 then (if n = 0 then s.config.powZeroZero else 0x00)
  else s.antilog.read (powIndex (logOf s a) n)

/-- ADD (42_field_ops.md R441). -/
def execAdd (a b : Byte) (s : State) : Out :=
  fieldOp (encode (.add a b)) s (respond .ok (zext32 (a ^^^ b)) s)

/-- SUB, identical to ADD (42_field_ops.md R442). -/
def execSub (a b : Byte) (s : State) : Out :=
  fieldOp (encode (.sub a b)) s (respond .ok (zext32 (a ^^^ b)) s)

/-- MUL (42_field_ops.md R443). -/
def execMul (a b : Byte) (s : State) : Out :=
  fieldOp (encode (.mul a b)) s (respond .ok (zext32 (fieldMul s a b)) s)

/-- DIV: the divisor is tested first, for every dividend (42_field_ops.md R446, R447; 90_conflicts.md C1). -/
def execDiv (a b : Byte) (s : State) : Out :=
  fieldOp (encode (.div a b)) s
    (if b = 0x00 then failWith .divByZero s else respond .ok (zext32 (fieldDiv s a b)) s)

/-- INV (42_field_ops.md R448). -/
def execInv (a : Byte) (s : State) : Out :=
  fieldOp (encode (.inv a)) s
    (if a = 0x00 then failWith .undefined s else respond .ok (zext32 (fieldInv s a)) s)

/-- POW (42_field_ops.md R450). -/
def execPow (a : Byte) (n : Half) (s : State) : Out :=
  fieldOp (encode (.pow a n)) s (respond .ok (zext32 (fieldPow s a n)) s)

/-- LOG (42_field_ops.md R456). -/
def execLog (a : Byte) (s : State) : Out :=
  fieldOp (encode (.log a)) s
    (if a = 0x00 then failWith .undefined s else respond .ok (zext32 (logOf s a)) s)

/-- EXP (42_field_ops.md R460): every index 0..255 is in range (R462; 90_conflicts.md C2). -/
def execExp (i : Byte) (s : State) : Out :=
  fieldOp (encode (.exp i)) s (respond .ok (zext32 (s.antilog.read i.toNat)) s)

end Sys2Proof.Machine
end

