-- ==== Sys2Proof/Machine/Query.lean ====
section
/-! DEFINITION. The query commands: QSEL, QSTAT and QFCMD (43_query.md R480 to R483). -/
namespace Sys2Proof.Machine

/-- QSEL: a field operation, so it needs READY (43_query.md R481). -/
def execQsel (s : State) : Out := fieldOp (encode .qsel) s (respond .ok (zext32 s.sel) s)

/-- QSTAT: runs in every state, FAULT included (43_query.md R482). -/
def execQstat (s : State) : Out := .next (respond .ok (statusData s) s)

/-- QFCMD: runs in every state, FAULT included (43_query.md R483). -/
def execQfcmd (s : State) : Out := .next (respond .ok s.faultCmd s)

end Sys2Proof.Machine
end

