-- ==== Sys2Proof/Machine/Dispatch.lean ====
section
/-! DEFINITION. One arm for each command. -/
namespace Sys2Proof.Machine

def exec (i : Instr) (s : State) : Host.Outcome State Fault Refusal :=
  match i with
  | .build k => Sys2Proof.Machine.execBuild k s
  | .add a b => Sys2Proof.Machine.execAdd a b s
  | .sub a b => Sys2Proof.Machine.execSub a b s
  | .mul a b => Sys2Proof.Machine.execMul a b s
  | .div a b => Sys2Proof.Machine.execDiv a b s
  | .inv a => Sys2Proof.Machine.execInv a s
  | .pow a n => Sys2Proof.Machine.execPow a n s
  | .log a => Sys2Proof.Machine.execLog a s
  | .exp k => Sys2Proof.Machine.execExp k s
  | .clmul a b k => Sys2Proof.Machine.execClmul a b k s
  | .qsel => Sys2Proof.Machine.execQsel s
  | .catval k => Sys2Proof.Machine.execCatval k s
  | .catgen k => Sys2Proof.Machine.execCatgen k s
  | .qstat => Sys2Proof.Machine.execQstat s
  | .qfcmd => Sys2Proof.Machine.execQfcmd s

end Sys2Proof.Machine
end

