-- ==== Sys2Proof/Machine/Port.lean ====
section
/-! DEFINITION. The ports (30_encoding.md R300, R331): when the engine is ready for a command and when it offers a response, what
it does with an accepted command word (R310), and one step under what the input ports carry. -/
namespace Sys2Proof.Machine

/-- `cmd_ready` while the input ports carry `x`: out of reset, `BUSY = 0` and no response waiting (30_encoding.md R331;
70_reset_and_hazards.md R700). -/
def cmdReady (x : HostInput) (s : State) : Bool := decide (x.rst ≠ .asserted) && !s.busy && s.pending.isNone

/-- `rsp_valid` while the input ports carry `x` (30_encoding.md R300; 70_reset_and_hazards.md R700). -/
def rspValid (x : HostInput) (s : State) : Bool := decide (x.rst ≠ .asserted) && s.pending.isSome

/-- `rsp_status` while `rsp_valid` is 1 (30_encoding.md R300, R321); none while it is 0, when the spec gives it no value. -/
def rspStatus (x : HostInput) (s : State) : Option (BitVec 2) :=
  if rspValid x s then s.pending.map fun r => r.status.code else none

/-- `rsp_data` while `rsp_valid` is 1 (30_encoding.md R300, R322); none while it is 0. -/
def rspData (x : HostInput) (s : State) : Option Word := if rspValid x s then s.pending.map fun r => r.data else none

/-- The `fault` output: 1 exactly when `STATE = FAULT` (60_exceptions.md R631). -/
def faultOut (s : State) : Bool := decide (s.state = .fault)

/-- The fatal cause of a word that is no command (30_encoding.md R311, R312). -/
def DecodeError.cause : DecodeError → FaultCause
  | .illegalOpcode => .illegalOpcode
  | .reservedBits => .reservedBits

/-- The commands that FAULT does not refuse: QSTAT (0xE) and QFCMD (0xF) (60_exceptions.md R612). -/
def allowedInFault (w : Word) : Bool := fieldOP w == 0xE || fieldOP w == 0xF

/-- A word that is no command: refused in FAULT unless its opcode is QSTAT's or QFCMD's, else fatal (30_encoding.md R310). -/
def rejectWord (e : DecodeError) (w : Word) (s : State) : State :=
  if s.state = .fault ∧ allowedInFault w = false then refuseInFault s else raiseFatal (DecodeError.cause e) w s

/-- An accepted command word, whole: decode, then the command's rule (30_encoding.md R310). A command's own rule holds its
refusal in FAULT. -/
def runWord (w : Word) (s : State) : Out :=
  match decodeWord w with
  | .ok i => exec i s
  | .error e => .next (rejectWord e w s)

/-- The response transfer: when `rsp_valid` and `rsp_ready` are both 1, the host takes the pending response
(30_encoding.md R300). -/
def transferResponse (x : HostInput) (s : State) : State :=
  if rspValid x s && x.rspReady then s.setPending none else s

/-- What reset leaves of the command that `x` offers when `rst` rises during it: a BUILD may have written part of the tables; no
other command writes any (70_reset_and_hazards.md R702; 20_memory.md R208). -/
def cutShort (progress : Nat) (x : HostInput) (s : State) : State :=
  match x.cmd with
  | some w =>
    if cmdReady x s ∧ s.state ≠ .fault then
      match decodeWord w with
      | .ok (.build k) =>
        match catalogEntry s.config k with
        | some e => partialBuild e progress s
        | none => s
      | _ => s
    else s
  | none => s

/-- One step while the input ports carry `x`. While `rst` is asserted, reset. Else the offered command runs when `cmd_ready` is 1,
and the pending response, if any, transfers when `rsp_ready` is 1; the two never both happen, since `cmd_ready` and `rsp_valid`
are not 1 together. When `rst` rises during the command, the command is discarded without a response. -/
def stepInput (x : HostInput) (s : State) : Out :=
  match x.rst with
  | .asserted => .next (applyReset s)
  | .duringCommand progress => .next (applyReset (cutShort progress x s))
  | .released =>
    match x.cmd with
    | some w => if cmdReady x s then runWord w s else .next (transferResponse x s)
    | none => .next (transferResponse x s)

/-- Ports with nothing on them. -/
def HostInput.idle : HostInput := ⟨.released, none, false⟩
/-- The host offers command word `w`. -/
def HostInput.offer (w : Word) : HostInput := ⟨.released, some w, false⟩
/-- The host takes the pending response. -/
def HostInput.take : HostInput := ⟨.released, none, true⟩
/-- `rst` is asserted. -/
def HostInput.reset : HostInput := ⟨.asserted, none, false⟩

/-- A program (95_test_vectors.md L3): command words issued one at a time, each waiting for its response, which the host then
takes. -/
def HostInput.program (ws : List Word) : List HostInput := ws.flatMap fun w => [.offer w, .take]

end Sys2Proof.Machine
end

