-- ==== Sys2Proof/Machine/Step.lean ====
section
/-! DEFINITION. One step of the engine, and how the host places the next command. -/
namespace Sys2Proof.Machine

/-- One step: the input ports carry the oldest sample of `inputs`. With no sample left nothing is offered, the engine does
nothing and its state holds (60_exceptions.md R645). -/
def step (s : State) : Host.Outcome State Fault Refusal :=
  match s.inputs with
  | [] => .next s
  | x :: rest => stepInput x (s.setInputs rest)

/-- `s` with the host offering the instruction whose bits are `w` at the next step, and the engine ready to accept it: not
busy, the earlier response taken (log entry 5). -/
def State.withFetchWord (s : State) (nbits w : Nat) : State :=
  ((s.setBusy false).setPending none).setInputs (HostInput.offer (BitVec.ofNat 32 (w % 2 ^ nbits)) :: s.inputs)

end Sys2Proof.Machine
end

