-- ==== Sys2Proof/WellFormed.lean ====
section
/-! DEFINITION. What is well formed. An `Instr` needs no check: its operands have the widths of its format's fields
(30_encoding.md R302, R304), so every term is a command word's meaning. What the spec does constrain is the catalog (00_scope.md
R8, "not checked at runtime", 20_memory.md R211): the premise of every claim about field arithmetic. And an assembler literal
must fit its field (30_encoding.md R340). -/
namespace Sys2Proof

/-! ## Polynomials over GF(2), as numbers: bit `i` is the coefficient of `x^i` (20_memory.md R201) -/

/-- Long division's remainder: clear the bits `d + n - 1` down to `d` of `v` by adding shifts of `p`, whose degree is `d`. -/
def polyModFrom (p d : Nat) : Nat → Nat → Nat
  | 0, v => v
  | n + 1, v => polyModFrom p d n (if v.testBit (n + d) then v ^^^ (p <<< n) else v)

/-- The remainder of a polynomial of degree at most 8 by a polynomial `p ≠ 0`. -/
def polyMod (v p : Nat) : Nat := polyModFrom p p.log2 (9 - p.log2) v

/-- "degree-8 polynomial over GF(2) with no nontrivial polynomial factors" (00_scope.md R17): no polynomial of degree 1 to 7
divides it. -/
def IrreducibleValue (v : BitVec 9) : Prop :=
  v.getLsbD 8 = true ∧ ∀ p < 256, 2 ≤ p → polyMod v.toNat p ≠ 0

/-- "a field element whose successive powers ... enumerate every nonzero field element" (00_scope.md R17): each of the 255
nonzero bytes is one of the 255 powers `gen^0 .. gen^254` (so each is exactly one of them). -/
def PrimitiveGen (e : CatEntry) : Prop := ∀ x : Byte, x ≠ 0 → ∃ i < 255, Machine.genPow e i = x

/-- The constraints of 00_scope.md R8 on one catalog entry. -/
structure CatEntry.WF (e : CatEntry) : Prop where
  /-- "`value_k` is a 9-bit value with bit 8 = 1" -/
  monic : e.value.getLsbD 8 = true
  /-- "`value_k` denotes a polynomial irreducible over GF(2)" -/
  irreducible : IrreducibleValue e.value
  /-- "`gen_k` is in 1..255" -/
  gen_ne_zero : e.gen ≠ 0
  /-- "and is a primitive element of the field `GF(2)[x]/(value_k)`" -/
  primitive : PrimitiveGen e

/-- `CATALOG` meets 00_scope.md R8: every entry does. -/
def Config.WF (c : Config) : Prop := ∀ k : Nat, ∀ h : k < nCatalog, (c.catalog[k]'h).WF

/-! ## Assembler literals (30_encoding.md R340) -/

/-- "`a`, `b`, `i` and `k` must fit in 8 bits". -/
def fitsByte (n : Nat) : Bool := decide (n < 2 ^ 8)
/-- "and `n` in 16 bits". -/
def fitsHalf (n : Nat) : Bool := decide (n < 2 ^ 16)
/-- `.word` emits a 32-bit word. -/
def fitsWord (n : Nat) : Bool := decide (n < 2 ^ 32)

end Sys2Proof
end

