-- ==== Sys2Proof/Machine/Assembler.lean ====
section
/-! DEFINITION. The assembler of 30_encoding.md R340: one command a line, literals that must fit their fields, `.word`, and the
line's text. It is no part of the engine, which takes command words; it is how the spec's programs are written. -/
namespace Sys2Proof.Machine

/-- The mnemonics of 30_encoding.md R340. -/
inductive Mnemonic where
  | build | add | sub | mul | div | inv | pow | log | exp | clmul | qsel | catval | catgen | qstat | qfcmd
  /-- `.word` -/
  | word
  deriving DecidableEq, Repr

/-- An assembler line: a mnemonic and its numeric operands in order. -/
structure AsmLine where
  /-- the mnemonic -/
  mnemonic : Mnemonic
  /-- the literals -/
  operands : List Nat
  deriving DecidableEq, Repr

/-- An 8-bit literal; "the assembler refuses a larger literal". -/
def literal8 (n : Nat) : Option Byte := if fitsByte n then some (BitVec.ofNat 8 n) else none
/-- POW's 16-bit literal. -/
def literal16 (n : Nat) : Option Half := if fitsHalf n then some (BitVec.ofNat 16 n) else none
/-- `.word`'s 32-bit literal. -/
def literal32 (n : Nat) : Option Word := if fitsWord n then some (BitVec.ofNat 32 n) else none

/-- The word of a command with one 8-bit operand. -/
def assemble1 (command : Byte → Instr) (a : Nat) : Option Word := (literal8 a).map fun a => encode (command a)
/-- The word of a command with two 8-bit operands. -/
def assemble2 (command : Byte → Byte → Instr) (a b : Nat) : Option Word :=
  (literal8 a).bind fun a => (literal8 b).map fun b => encode (command a b)

/-- The word a line assembles to; a literal that does not fit, or a wrong number of operands, is refused. -/
def assemble (l : AsmLine) : Option Word :=
  match l.mnemonic, l.operands with
  | .build, [k] => assemble1 .build k
  | .add, [a, b] => assemble2 .add a b
  | .sub, [a, b] => assemble2 .sub a b
  | .mul, [a, b] => assemble2 .mul a b
  | .div, [a, b] => assemble2 .div a b
  | .inv, [a] => assemble1 .inv a
  | .pow, [a, n] => (literal8 a).bind fun a => (literal16 n).map fun n => encode (.pow a n)
  | .log, [a] => assemble1 .log a
  | .exp, [i] => assemble1 .exp i
  | .clmul, [a, b, k] => (literal8 k).bind fun k => assemble2 (fun a b => .clmul a b k) a b
  | .qsel, [] => some (encode .qsel)
  | .catval, [k] => assemble1 .catval k
  | .catgen, [k] => assemble1 .catgen k
  | .qstat, [] => some (encode .qstat)
  | .qfcmd, [] => some (encode .qfcmd)
  | .word, [w] => literal32 w
  | _, _ => none

/-! ## The text of a line (30_encoding.md R340; blanks, lines without a command and letter case of hexadecimal digits: log entry 6) -/

/-- The mnemonics' spellings, lower-case. -/
def spellings : List (List Char × Mnemonic) :=
  [(['b', 'u', 'i', 'l', 'd'], .build), (['a', 'd', 'd'], .add), (['s', 'u', 'b'], .sub), (['m', 'u', 'l'], .mul),
   (['d', 'i', 'v'], .div), (['i', 'n', 'v'], .inv), (['p', 'o', 'w'], .pow), (['l', 'o', 'g'], .log)] ++
  [(['e', 'x', 'p'], .exp), (['c', 'l', 'm', 'u', 'l'], .clmul), (['q', 's', 'e', 'l'], .qsel),
   (['c', 'a', 't', 'v', 'a', 'l'], .catval), (['c', 'a', 't', 'g', 'e', 'n'], .catgen),
   (['q', 's', 't', 'a', 't'], .qstat), (['q', 'f', 'c', 'm', 'd'], .qfcmd), (['.', 'w', 'o', 'r', 'd'], .word)]

/-- A digit's value in the given base. -/
def digitValue (base : Nat) (c : Char) : Option Nat :=
  let n := c.toNat
  let v := if 48 ≤ n ∧ n ≤ 57 then n - 48 else if 97 ≤ n ∧ n ≤ 102 then n - 87 else if 65 ≤ n ∧ n ≤ 70 then n - 55 else 16
  if v < base then some v else none

/-- The value of a run of digits, most significant first. -/
def digitsValue (base : Nat) : List Char → Nat → Option Nat
  | [], acc => some acc
  | c :: cs, acc => (digitValue base c).bind fun d => digitsValue base cs (acc * base + d)

/-- A numeric literal: decimal, or hexadecimal after `0x`. -/
def parseLiteral : List Char → Option Nat
  | [] => none
  | ['0', 'x'] => none
  | '0' :: 'x' :: ds => digitsValue 16 ds 0
  | ds => digitsValue 10 ds 0

/-- The pieces of a text between the characters that `sep` picks. -/
def splitAt (sep : Char → Bool) : List Char → List (List Char)
  | [] => [[]]
  | c :: cs =>
    if sep c then [] :: splitAt sep cs
    else
      match splitAt sep cs with
      | [] => [[c]]
      | piece :: rest => (c :: piece) :: rest

/-- Spaces and tabs. -/
def isBlank (c : Char) : Bool := c == ' ' || c == '\t'

/-- A text without the blanks around it. -/
def trimBlanks (cs : List Char) : List Char := ((cs.dropWhile isBlank).reverse.dropWhile isBlank).reverse

/-- The literals of an operand text, separated by commas. -/
def parseOperands (cs : List Char) : Option (List Nat) :=
  if cs = [] then some [] else (splitAt (· == ',') cs).mapM fun piece => parseLiteral (trimBlanks piece)

/-- A line of text without its comment: nothing, a line of the assembler, or refused (none). DESIGN CHOICE (log entry 6): a line
that is blank, or holds only a comment, is accepted and is no command. -/
def parseLine (text : List Char) : Option (Option AsmLine) :=
  let line := trimBlanks (text.takeWhile (· != ';'))
  if line = [] then some none
  else
    let name := line.takeWhile fun c => !isBlank c
    (spellings.lookup name).bind fun m =>
      (parseOperands (trimBlanks (line.drop name.length))).map fun ns => some ⟨m, ns⟩

end Sys2Proof.Machine
end

