-- ==== Sys2Proof/Safety.lean ====
section
/-! DEFINITION. What claims speak of: a command that answers and changes nothing else, and the invariant of the engine. -/
namespace Sys2Proof.Machine

/-- The command completes with response `(status, data)` and changes nothing else (30_encoding.md R320, R330;
20_memory.md R208). -/
def Answers (i : Instr) (s : State) (status : Status) (data : Word) : Prop :=
  exec i s = .next { s with pending := some ⟨status, data⟩ }

/-- The command raises `Fatal(cause)` from a state that is not FAULT (60_exceptions.md R610): the three writes, the response, and
nothing else. -/
def RaisesFatal (i : Instr) (s : State) (cause : FaultCause) : Prop :=
  exec i s = .next { s with
    faultCause := cause, faultCmd := encode i, state := .fault, pending := some ⟨.fatal, zext32 cause.code⟩ }

/-! ## The opcode table, as claims speak of it -/

/-- The `mask` of each row of opcode_table.json, by opcode (30_encoding.md R303, R305); `0x0` has no row. -/
def tableMask (op : BitVec 4) : Word :=
  if op = 0xB ∨ op = 0xE ∨ op = 0xF then 0xFFFFFFFF
  else if op = 0x1 ∨ op = 0x6 ∨ op = 0x8 ∨ op = 0x9 ∨ op = 0xC ∨ op = 0xD then 0xFFFF00FF
  else if op = 0x2 ∨ op = 0x3 ∨ op = 0x4 ∨ op = 0x5 then 0xFF0000FF
  else 0x000000FF

/-- The word has a 1 in a zero bit of its opcode's format (30_encoding.md R312). -/
def HasReservedBit (w : Word) : Prop := w &&& tableMask (fieldOP w) ≠ zext32 (fieldOP w)

/-- "needs READY" in 30_encoding.md R305: the field operations of 60_exceptions.md R620, check 5. -/
def needsReady : Instr → Bool
  | .add _ _ | .sub _ _ | .mul _ _ | .div _ _ | .inv _ | .pow _ _ | .log _ | .exp _ | .qsel => true
  | .build _ | .clmul _ _ _ | .catval _ | .catgen _ | .qstat | .qfcmd => false

/-- The catalog index of BUILD, CATVAL, CATGEN and CLMUL (60_exceptions.md R620, check 4). -/
def indexOperand : Instr → Option Byte
  | .build k | .catval k | .catgen k | .clmul _ _ k => some k
  | .add _ _ | .sub _ _ | .mul _ _ | .div _ _ | .inv _ | .pow _ _ | .log _ | .exp _ | .qsel | .qstat | .qfcmd => none

/-- The recoverable failure of a command, if its operands have one (60_exceptions.md R620, check 6). -/
def recoverableFailure : Instr → Option Status
  | .div _ b => if b = 0x00 then some .divByZero else none
  | .inv a | .log a => if a = 0x00 then some .undefined else none
  | .add _ _ | .sub _ _ | .mul _ _ | .pow _ _ | .exp _ | .build _ | .clmul _ _ _ | .catval _ | .catgen _
  | .qsel | .qstat | .qfcmd => none

/-- Every register, both tables and the parameters are the same: only the pending response and the inputs may differ. -/
structure SameEngine (s t : State) : Prop where
  state : t.state = s.state
  sel : t.sel = s.sel
  faultCause : t.faultCause = s.faultCause
  faultCmd : t.faultCmd = s.faultCmd
  antilog : t.antilog = s.antilog
  log : t.log = s.log
  busy : t.busy = s.busy
  config : t.config = s.config

/-- What every command word with opcode `op` does when it is malformed: `Fatal(RESERVED_BITS)` outside FAULT, nothing else written
(30_encoding.md R312; 60_exceptions.md R610). -/
def ReservedBitsFatal (op : BitVec 4) : Prop :=
  ∀ (w : Word) (s : State), fieldOP w = op → HasReservedBit w → s.state ≠ .fault →
    runWord w s = .next { s with
      faultCause := .reservedBits, faultCmd := w, state := .fault, pending := some ⟨.fatal, 0x00000002⟩ }

/-- What the rules of the field operations and QSEL share (42_field_ops.md R440; 43_query.md R481): the command's word, and what it
does outside READY and when malformed. -/
structure FieldCommand (i : Instr) (word : Word) : Prop where
  /-- the encoding -/
  encoding : encode i = word
  /-- `NOT_READY` in EMPTY -/
  inEmpty : ∀ s, s.state = .empty → RaisesFatal i s .notReady
  /-- refused in FAULT -/
  inFault : ∀ s, s.state = .fault → Answers i s .fatal (zext32 s.faultCause.code)
  /-- `RESERVED_BITS` -/
  malformed : ReservedBitsFatal (fieldOP word)

/-- What the rules of BUILD and the catalog operations share (40_catalog_clmul.md R400, R402 to R404; 41_build.md R421): the
command's word with index `k`, and what it does in FAULT, on an invalid index and when malformed. -/
structure CatalogCommand (i : Instr) (word : Word) (k : Byte) : Prop where
  /-- the encoding -/
  encoding : encode i = word
  /-- `INVALID_INDEX` outside FAULT -/
  invalid : ∀ s, s.state ≠ .fault → nCatalog ≤ k.toNat → RaisesFatal i s .invalidIndex
  /-- refused in FAULT -/
  inFault : ∀ s, s.state = .fault → Answers i s .fatal (zext32 s.faultCause.code)
  /-- `RESERVED_BITS` -/
  malformed : ReservedBitsFatal (fieldOP word)

/-! ## The invariant -/

/-- The table memories are in canonical form, with no entry outside 0..511 and 0..255 (00_scope.md R11). -/
def TablesCanonical (s : State) : Prop := Memory.wf antilogSize s.antilog ∧ Memory.wf logSize s.log

/-- The registers hold what 10_state.md R103 to R106 and R113 allow between commands: BUSY is 0; SEL is a valid index; STATE is
FAULT exactly when a cause is recorded, never EXP_RANGE; without a fatal failure FAULT_CMD still has its reset value. -/
structure RegistersLegal (s : State) : Prop where
  /-- `BUSY` is 1 only inside a BUILD (10_state.md R113). -/
  busy : s.busy = false
  /-- `SEL` is "always below `N_CATALOG`" (10_state.md R104). -/
  sel : s.sel.toNat < nCatalog
  /-- FAULT and a recorded cause go together (10_state.md R103, R105; 60_exceptions.md R610). -/
  cause : s.state = .fault ↔ s.faultCause ≠ .noCause
  /-- `EXP_RANGE` is never raised (10_state.md R105). -/
  noExpRange : s.faultCause ≠ .expRange
  /-- `FAULT_CMD` is written only by fatal entry (10_state.md R106). -/
  cmd : s.state ≠ .fault → s.faultCmd = 0x00000000

/-- A pending response agrees with the state: FATAL only in FAULT, with the cause as data; a recoverable failure only in READY,
with data 0 (30_encoding.md R321, R322; 60_exceptions.md R603). -/
structure ResponseLegal (s : State) : Prop where
  /-- "a precondition violation; the engine is in `FAULT`" -/
  fatal : ∀ d, s.pending = some ⟨.fatal, d⟩ → s.state = .fault ∧ d = zext32 s.faultCause.code
  /-- UNDEFINED carries data 0 and leaves READY -/
  undefined : ∀ d, s.pending = some ⟨.undefined, d⟩ → s.state = .ready ∧ d = 0x00000000
  /-- DIV_BY_ZERO carries data 0 and leaves READY -/
  divByZero : ∀ d, s.pending = some ⟨.divByZero, d⟩ → s.state = .ready ∧ d = 0x00000000

/-- In READY the tables are those BUILD constructs for SEL (10_state.md R107, R108): the antilog half for any catalog, the log half
when the entry meets 00_scope.md R8. -/
structure TablesBuilt (s : State) : Prop where
  /-- entries 0..254 are the powers of the generator -/
  antilogLow : s.state = .ready → ∀ e, catalogEntry s.config s.sel = some e →
    ∀ i < 255, s.antilog.read i = genPow e i
  /-- entries 255..509 repeat them -/
  antilogHigh : s.state = .ready → ∀ e, catalogEntry s.config s.sel = some e →
    ∀ i < 255, s.antilog.read (255 + i) = genPow e i
  /-- the log of each power is its exponent -/
  log : s.state = .ready → ∀ e, catalogEntry s.config s.sel = some e → e.WF →
    ∀ i < 255, s.log.read (genPow e i).toNat = BitVec.ofNat 8 i

/-- The invariant of the engine: reset establishes it and every step keeps it. -/
structure State.Inv (s : State) : Prop where
  /-- the tables are canonical -/
  canonical : TablesCanonical s
  /-- the registers are legal -/
  registers : RegistersLegal s
  /-- the pending response is legal -/
  response : ResponseLegal s
  /-- the tables are built in READY -/
  built : TablesBuilt s

/-- The built field is that of the catalog entry `e`, in a state that runs reach, under a catalog that meets 00_scope.md R8. -/
structure FieldBuilt (s : State) (e : CatEntry) : Prop where
  /-- the invariant (stated of every step by `Obligations.StepKeepsInvariant`) -/
  inv : s.Inv
  /-- "in READY" -/
  ready : s.state = .ready
  /-- "when `CATALOG` meets 00_scope.md rule R8" -/
  wf : s.config.WF
  /-- `e` is entry SEL -/
  entry : catalogEntry s.config s.sel = some e

/-- `a` multiplied by itself `n` times under `clmul8`, and 0x01 when `n = 0` (42_field_ops.md R471). -/
def clmulPow (m a : Byte) : Nat → Byte
  | 0 => 0x01
  | n + 1 => clmul8 (clmulPow m a n) a m

/-- The product of two polynomials over GF(2) of degree below `n` in the second, as numbers. -/
def polyMul (a b : Nat) : Nat → Nat
  | 0 => 0
  | n + 1 => polyMul a b n ^^^ (if b.testBit n then a <<< n else 0)

end Sys2Proof.Machine
end

