-- ==== Sys2Proof/Certificates/Slice0/Obligations.lean ====
section
/-! DEFINITION. The statements for the provers. Each says which rule of spec/ it formalises; every statement holds for every
catalog and both values of `POW_ZERO_ZERO`, unless a premise names them. -/

open Sys2Proof Sys2Proof.Machine

/-! ## Encoding -/

/-- Decoding the word of any command, and decoding that word's bytes, gives the command back, at every value of every operand
(30_encoding.md section 2). -/
def Obligations.DecodeInvertsEncode : Prop :=
  ∀ i : Instr, decodeWord (encode i) = .ok i ∧ decodeBytes (bytesOfWord (encode i)) = some (.ok i)

/-- A word that decodes is the word of the command it decodes to: no bit of a command word is dropped (30_encoding.md
section 2). -/
def Obligations.EncodeInvertsDecode : Prop := ∀ (w : Word) (i : Instr), decodeWord w = .ok i → encode i = w

/-- 30_encoding.md R313: every word is exactly one of a command with all its zero bits 0, illegal, or reserved; and none executes
as a no-op, since every accepted word is answered. -/
def Obligations.EveryWordIsCommandIllegalOrReserved : Prop :=
  ∀ w : Word,
    (fieldOP w = 0 → decodeWord w = .error .illegalOpcode) ∧
    (fieldOP w ≠ 0 → HasReservedBit w → decodeWord w = .error .reservedBits) ∧
    (fieldOP w ≠ 0 → ¬ HasReservedBit w → ∃ i, decodeWord w = .ok i ∧ encode i = w) ∧
    ∀ s, ∃ t r, runWord w s = .next t ∧ t.pending = some r

/-- Words written out from 30_encoding.md R302 to R305 and R340 decode to the commands they stand for (a sanity statement). -/
def Obligations.SpecWordsDecode : Prop :=
  decodeWord 0x00000001 = .ok (.build 0) ∧ decodeWord 0x00CA5304 = .ok (.mul 0x53 0xCA) ∧
  decodeWord 0x00080207 = .ok (.pow 0x02 8) ∧ decodeWord 0x00CA530A = .ok (.clmul 0x53 0xCA 0) ∧
  decodeWord 0x0000000E = .ok .qstat ∧ decodeWord 0x00000000 = .error .illegalOpcode ∧
  decodeWord 0x01CA5304 = .error .reservedBits

/-- 20_memory.md R202: byte `j` of a word is `word[8j+7:8j]`, byte 0 first, and the bytes give the word back. -/
def Obligations.WordsAreLittleEndianBytes : Prop :=
  ∀ w : Word, (bytesOfWord w).length = 4 ∧
    (∀ j < 4, (bytesOfWord w)[j]? = some (w.extractLsb' (8 * j) 8)) ∧ wordOfBytes (bytesOfWord w) = some w

/-- The assembler's lines (30_encoding.md section 6): operands that fit give the command's word, a larger literal is refused,
`.word` is emitted unchanged, and the spec's example texts give its words. How blanks are read is the model's choice (log
entry 6). -/
def Obligations.AssemblerEncodesOrRefuses : Prop :=
  (∀ p ∈ ([(.build, .build), (.inv, .inv), (.log, .log), (.exp, .exp), (.catval, .catval), (.catgen, .catgen)] :
      List (Mnemonic × (Byte → Instr))), ∀ a : Nat,
    assemble ⟨p.1, [a]⟩ = if a < 256 then some (encode (p.2 (BitVec.ofNat 8 a))) else none) ∧
  (∀ p ∈ ([(.add, .add), (.sub, .sub), (.mul, .mul), (.div, .div)] : List (Mnemonic × (Byte → Byte → Instr))), ∀ a b : Nat,
    assemble ⟨p.1, [a, b]⟩ =
      if a < 256 ∧ b < 256 then some (encode (p.2 (BitVec.ofNat 8 a) (BitVec.ofNat 8 b))) else none) ∧
  (∀ a n : Nat, assemble ⟨.pow, [a, n]⟩ =
    if a < 256 ∧ n < 65536 then some (encode (.pow (BitVec.ofNat 8 a) (BitVec.ofNat 16 n))) else none) ∧
  (∀ a b k : Nat, assemble ⟨.clmul, [a, b, k]⟩ =
    if a < 256 ∧ b < 256 ∧ k < 256 then
      some (encode (.clmul (BitVec.ofNat 8 a) (BitVec.ofNat 8 b) (BitVec.ofNat 8 k))) else none) ∧
  (∀ w : Nat, assemble ⟨.word, [w]⟩ = if w < 2 ^ 32 then some (BitVec.ofNat 32 w) else none) ∧
  assemble ⟨.qsel, []⟩ = some (encode .qsel) ∧ assemble ⟨.qstat, []⟩ = some (encode .qstat) ∧
  assemble ⟨.qfcmd, []⟩ = some (encode .qfcmd) ∧
  (parseLine "mul 0x53, 0xca".toList).bind (·.bind assemble) = some 0x00CA5304 ∧
  (parseLine "clmul 0x53, 0xca, 0".toList).bind (·.bind assemble) = some 0x00CA530A ∧
  (parseLine "qstat ; a comment".toList).bind (·.bind assemble) = some 0x0000000E

/-! ## Steps, ports and reset -/

/-- A step accepts the offered word and runs the command it decodes to: when the engine is out of reset, not busy and no response is
waiting, the step is `exec` of that command on the state without that input (30_encoding.md sections 3 and 5). That the ports'
traffic is a list of samples is the model's choice (log entry 4). -/
def Obligations.StepRunsDecodedCommand : Prop :=
  ∀ (s : State) (x : HostInput) (rest : List HostInput) (w : Word) (i : Instr),
    s.inputs = x :: rest → x.rst = .released → x.cmd = some w → s.busy = false → s.pending = none →
    decodeWord w = .ok i → step s = exec i { s with inputs := rest }

/-- 30_encoding.md R310 and 60_exceptions.md R620: the checks of an accepted word run in this order, and the first that applies
decides the outcome. -/
def Obligations.ChecksRunInPriorityOrder : Prop :=
  ∀ (w : Word) (s : State), ∃ t, runWord w s = .next t ∧
    (if s.state = .fault ∧ fieldOP w ≠ 0xE ∧ fieldOP w ≠ 0xF then
      t = { s with pending := some ⟨.fatal, zext32 s.faultCause.code⟩ }
    else if fieldOP w = 0x0 then t = raiseFatal .illegalOpcode w s
    else if w &&& tableMask (fieldOP w) ≠ zext32 (fieldOP w) then t = raiseFatal .reservedBits w s
    else ∃ i, decodeWord w = .ok i ∧ encode i = w ∧ exec i s = .next t ∧
      (if ∃ k, indexOperand i = some k ∧ nCatalog ≤ k.toNat then t = raiseFatal .invalidIndex w s
      else if needsReady i = true ∧ s.state = .empty then t = raiseFatal .notReady w s
      else match recoverableFailure i with
        | some status => t = { s with pending := some ⟨status, 0x00000000⟩ }
        | none => (∃ d, t.pending = some ⟨.ok, d⟩) ∧ t.faultCause = s.faultCause ∧ t.faultCmd = s.faultCmd))

/-- 30_encoding.md R311: `OP = 0x0` is the only unassigned opcode, illegal whatever the other bits; the all-zero word is illegal.
(In FAULT the word is refused: 60_exceptions.md R612.) -/
def Obligations.OnlyOpcodeZeroIsIllegal : Prop :=
  (∀ w : Word, decodeWord w = .error .illegalOpcode ↔ fieldOP w = 0x0) ∧
  (∀ (w : Word) (s : State), fieldOP w = 0x0 → s.state ≠ .fault →
    runWord w s = .next { s with
      faultCause := .illegalOpcode, faultCmd := w, state := .fault, pending := some ⟨.fatal, 0x00000001⟩ }) ∧
  fieldOP 0x00000000 = 0x0

/-- 30_encoding.md R312: a 1 in any zero bit of an assigned opcode's format raises `Fatal(RESERVED_BITS)`; `RSV` is a zero bit in
every format. -/
def Obligations.ReservedBitsAreFatal : Prop :=
  (∀ op : BitVec 4, op ≠ 0x0 → ReservedBitsFatal op) ∧
  (∀ w : Word, fieldOP w ≠ 0x0 → fieldRSV w ≠ 0x0 → HasReservedBit w)

/-- 30_encoding.md R331: when `cmd_ready` is 1; an offer while it is 0 has no effect; and taking the pending response brings it back
to 1. -/
def Obligations.CommandAcceptedOnlyWhenReady : Prop :=
  (∀ (x : HostInput) (s : State),
    cmdReady x s = true ↔ x.rst ≠ .asserted ∧ s.busy = false ∧ s.pending = none) ∧
  (∀ (s : State) (x : HostInput) (rest : List HostInput), s.inputs = x :: rest → cmdReady x s = false →
    step s = step { s with inputs := { x with cmd := none } :: rest }) ∧
  (∀ (s : State) (x : HostInput) (rest : List HostInput) (r : Response), s.Inv → s.inputs = x :: rest →
    s.pending = some r → x.rst = .released → x.rspReady = true →
    ∃ t, step s = .next t ∧ SameEngine s t ∧ t.pending = none ∧
      ∀ y : HostInput, y.rst ≠ .asserted → cmdReady y t = true)

/-- 30_encoding.md R330 and R321: outside reset, every accepted command is one step, `runWord` of its word, and gets exactly one
response, before the next command is accepted; nothing changes without an accepted command; out of reset the response port shows
the pending response (R300), its status by the codes of R321; and each status other than OK means what R321 says. -/
def Obligations.OneResponseForEachAcceptedCommand : Prop :=
  (∀ s : State, s.inputs = [] → step s = .next s) ∧
  (∀ (s : State) (x : HostInput) (rest : List HostInput), s.inputs = x :: rest → x.rst = .released →
    ∃ t, step s = .next t ∧ t.inputs = rest ∧
      (∀ w, x.cmd = some w → cmdReady x s = true →
        runWord w { s with inputs := rest } = .next t ∧ s.pending = none ∧ ∃ r, t.pending = some r) ∧
      ((x.cmd = none ∨ cmdReady x s = false) →
        SameEngine s t ∧ t.pending = if s.pending.isSome ∧ x.rspReady = true then none else s.pending)) ∧
  (∀ (x : HostInput) (s : State), rspValid x s = true ↔ x.rst ≠ .asserted ∧ ∃ r, s.pending = some r) ∧
  (∀ (x : HostInput) (s : State) (r : Response), x.rst ≠ .asserted → s.pending = some r →
    rspData x s = some r.data ∧
    rspStatus x s = some (match r.status with | .ok => 0 | .undefined => 1 | .divByZero => 2 | .fatal => 3)) ∧
  (∀ (w : Word) (s t : State) (r : Response), runWord w s = .next t → t.pending = some r →
    (r.status = .undefined → w = encode (.log 0x00) ∨ w = encode (.inv 0x00)) ∧
    (r.status = .divByZero → ∃ a : Byte, w = encode (.div a 0x00)) ∧
    (r.status = .fatal → t.state = .fault))

/-- 60_exceptions.md R645: with no command offered the engine does nothing and its state holds. -/
def Obligations.IdleEngineHolds : Prop :=
  (∀ s : State, s.inputs = [] → step s = .next s) ∧
  (∀ (s : State) (x : HostInput) (rest : List HostInput), s.inputs = x :: rest → x.rst = .released → x.cmd = none →
    ∃ t, step s = .next t ∧ SameEngine s t ∧ (x.rspReady = false → t = { s with inputs := rest }))

/-- 70_reset_and_hazards.md R700: while `rst` is asserted nothing is accepted or offered and the registers take their reset values;
afterwards the engine is in EMPTY and accepts commands; and reset is the only way out of FAULT. -/
def Obligations.ResetStepResetsEngine : Prop :=
  (∀ (x : HostInput) (s : State), x.rst = .asserted → cmdReady x s = false ∧ rspValid x s = false) ∧
  (∀ (s : State) (x : HostInput) (rest : List HostInput), s.inputs = x :: rest → x.rst ≠ .released →
    ∃ t, step s = .next t ∧ t.state = .empty ∧ t.sel = 0x00 ∧ t.faultCause = .noCause ∧ t.faultCmd = 0x00000000 ∧
      t.busy = false ∧ t.pending = none ∧ faultOut t = false ∧ t.config = s.config ∧ t.inputs = rest ∧
      ∀ y : HostInput, y.rst ≠ .asserted → cmdReady y t = true) ∧
  (∀ s t : State, s.state = .fault → step s = .next t → t.state ≠ .fault →
    ∃ x rest, s.inputs = x :: rest ∧ x.rst ≠ .released)

/-- 70_reset_and_hazards.md section 1 (R702): a BUILD that reset cuts short gives no response and leaves EMPTY; its walk's first
entries may have been written. That a BUILD is cut between loop iterations is the model's reading (log entry 3). -/
def Obligations.ResetCutsBuildShort : Prop :=
  ∀ (s : State) (x : HostInput) (rest : List HostInput) (k : Byte) (e : CatEntry) (n : Nat),
    TablesCanonical s → s.inputs = x :: rest → x.rst = .duringCommand n → x.cmd = some (encode (.build k)) →
    cmdReady x s = true → s.state ≠ .fault → catalogEntry s.config k = some e →
    ∃ t, step s = .next t ∧ t.state = .empty ∧ t.pending = none ∧ TablesCanonical t ∧
      (∀ i < min n 255, t.antilog.read i = genPow e i) ∧
      (∀ i, min n 255 ≤ i → i < 255 → t.antilog.read i = s.antilog.read i)

/-- 70_reset_and_hazards.md R701: the reset value of every piece of state, for any catalog, and what QSTAT then returns. The tables
are unspecified, and never visible: in EMPTY no word's answer depends on them, and a BUILD that succeeds rewrites every entry a
command can read. -/
def Obligations.ResetStateHasResetValues : Prop :=
  (∀ s : State, (s = State.reset ∨ ∃ c, s = State.resetWith c) →
    s.state = .empty ∧ s.sel = 0x00 ∧ s.faultCause = .noCause ∧ s.faultCmd = 0x00000000 ∧ s.busy = false ∧
    s.pending = none ∧ faultOut s = false ∧ Answers .qstat s .ok 0x00000000) ∧
  (∀ (s : State) (antilog log : Memory) (w : Word), s.state = .empty →
    ∃ t u, runWord w s = .next t ∧ runWord w { s with antilog := antilog, log := log } = .next u ∧
      t.pending = u.pending ∧ t.state = u.state) ∧
  (∀ (s : State) (antilog log : Memory) (k : Byte), s.state = .empty → s.config.WF → k.toNat < nCatalog →
    TablesCanonical s → TablesCanonical { s with antilog := antilog, log := log } →
    ∃ t u, exec (.build k) s = .next t ∧ exec (.build k) { s with antilog := antilog, log := log } = .next u ∧
      (∀ i < 510, t.antilog.read i = u.antilog.read i) ∧ ∀ x < 256, x ≠ 0 → t.log.read x = u.log.read x)

/-- 10_state.md R103: the codes of STATE (3 is never held), what each state means for a command, its reset value, and its only
transitions. -/
def Obligations.OnlyStatedStateTransitions : Prop :=
  EngineState.code .empty = 0 ∧ EngineState.code .ready = 1 ∧ EngineState.code .fault = 2 ∧
  (∀ s : State, s.state.code ≠ 3) ∧
  (∀ (i : Instr) (s : State), s.state = .empty → needsReady i = true → RaisesFatal i s .notReady) ∧
  (∀ s : State, s.Inv → s.state = .ready → s.sel.toNat < nCatalog ∧ TablesBuilt s) ∧
  (∀ (i : Instr) (s : State), s.state = .fault → i ≠ .qstat → i ≠ .qfcmd →
    Answers i s .fatal (zext32 s.faultCause.code)) ∧
  (∀ c : Config, (State.resetWith c).state = .empty) ∧
  (∀ (s t : State) (x : HostInput) (rest : List HostInput), s.inputs = x :: rest → step s = .next t → t.state ≠ s.state →
    (x.rst ≠ .released ∧ t.state = .empty) ∨
    (x.rst = .released ∧ s.state = .empty ∧ t.state = .ready ∧
      ∃ k : Byte, x.cmd = some (encode (.build k)) ∧ k.toNat < nCatalog ∧ t.sel = k) ∨
    (x.rst = .released ∧ s.state ≠ .fault ∧ t.state = .fault ∧
      ∃ w c, x.cmd = some w ∧ t.pending = some ⟨.fatal, zext32 c.code⟩ ∧ t.faultCause = c ∧ t.faultCmd = w)) ∧
  (∀ s t : State, s.inputs = [] → step s = .next t → t.state = s.state)

/-- 10_state.md R104: only a BUILD that succeeds writes SEL, with its own index, below `N_CATALOG`; SEL keeps its value through a
failed BUILD and fatal entry; its reset value is 0x00; QSTAT shows it in every state. -/
def Obligations.OnlyBuildWritesSel : Prop :=
  (∀ (w : Word) (s t : State), runWord w s = .next t →
    (t.sel = s.sel ∨ ∃ k : Byte, w = encode (.build k) ∧ k.toNat < nCatalog ∧ t.sel = k ∧ t.state = .ready)) ∧
  (∀ (w : Word) (s t : State), runWord w s = .next t → (∃ d, t.pending = some ⟨.fatal, d⟩) → t.sel = s.sel) ∧
  (∀ (k : Byte) (s : State), s.state ≠ .fault → k.toNat < nCatalog →
    ∃ t, exec (.build k) s = .next t ∧ t.sel = k) ∧
  (∀ c : Config, (State.resetWith c).sel = 0x00) ∧
  (∀ s : State, ∃ d : Word, Answers .qstat s .ok d ∧ d.extractLsb' 8 8 = s.sel)

/-- 10_state.md R106: FAULT_CMD is the whole word of the first fatal failure since reset; only fatal entry writes it, with
FAULT_CAUSE; QFCMD reads it. -/
def Obligations.FaultCmdHoldsFirstFaultingWord : Prop :=
  (∀ (w : Word) (s t : State), runWord w s = .next t → (t.faultCmd ≠ s.faultCmd ∨ t.faultCause ≠ s.faultCause) →
    s.state ≠ .fault ∧ t.state = .fault ∧ t.faultCmd = w) ∧
  (∀ (w : Word) (s t : State), runWord w s = .next t → s.state ≠ .fault → t.state = .fault → t.faultCmd = w) ∧
  (∀ c : Config, (State.resetWith c).faultCmd = 0x00000000) ∧
  (∀ s : State, Answers .qfcmd s .ok s.faultCmd)

/-- 60_exceptions.md R631: the `fault` output is 1 exactly in FAULT, rises at a fatal entry and falls only at reset. -/
def Obligations.FaultOutputFollowsState : Prop :=
  (∀ s : State, faultOut s = true ↔ s.state = .fault) ∧
  (∀ s t : State, step s = .next t → faultOut s = false → faultOut t = true → ∃ d, t.pending = some ⟨.fatal, d⟩) ∧
  (∀ s t : State, step s = .next t → faultOut s = true → faultOut t = false →
    ∃ x rest, s.inputs = x :: rest ∧ x.rst ≠ .released)

/-! ## Failures -/

/-- 60_exceptions.md R610: a fatal failure is precise. Outside FAULT it makes the three writes and the response and nothing else; in
FAULT it writes nothing. And whatever command word answers FATAL outside FAULT did only that. -/
def Obligations.FatalFailureIsPrecise : Prop :=
  (∀ (c : FaultCause) (w : Word) (s : State), s.state ≠ .fault →
    raiseFatal c w s =
      { s with faultCause := c, faultCmd := w, state := .fault, pending := some ⟨.fatal, zext32 c.code⟩ }) ∧
  (∀ (c : FaultCause) (w : Word) (s : State), s.state = .fault →
    raiseFatal c w s = { s with pending := some ⟨.fatal, zext32 s.faultCause.code⟩ }) ∧
  (∀ (w : Word) (s t : State), s.state ≠ .fault → runWord w s = .next t → (∃ d, t.pending = some ⟨.fatal, d⟩) →
    ∃ c, t = { s with faultCause := c, faultCmd := w, state := .fault, pending := some ⟨.fatal, zext32 c.code⟩ })

/-- 60_exceptions.md R612: in FAULT every command word except QSTAT's and QFCMD's opcodes is refused with the first cause, and
nothing is written. -/
def Obligations.FaultRefusesEveryOtherCommand : Prop :=
  ∀ (w : Word) (s : State), s.state = .fault → fieldOP w ≠ 0xE → fieldOP w ≠ 0xF →
    runWord w s = .next { s with pending := some ⟨.fatal, zext32 s.faultCause.code⟩ }

/-- 60_exceptions.md R613: no command leaves FAULT or overwrites the first cause, no recoverable failure occurs there, and a step
that leaves FAULT is a reset. -/
def Obligations.NoCommandLeavesFault : Prop :=
  (∀ (w : Word) (s : State), s.state = .fault → ∃ t, runWord w s = .next t ∧ SameEngine s t ∧
    ∃ r, t.pending = some r ∧ (r.status = .fatal ∨ r.status = .ok)) ∧
  (∀ s t : State, s.state = .fault → step s = .next t → t.state ≠ .fault →
    ∃ x rest, s.inputs = x :: rest ∧ x.rst ≠ .released)

/-- 60_exceptions.md R603: a recoverable failure answers with data 0, in READY, and writes no state. -/
def Obligations.RecoverableFailureChangesNothing : Prop :=
  (∀ (w : Word) (s t : State) (r : Response), runWord w s = .next t → t.pending = some r →
    (r.status = .undefined ∨ r.status = .divByZero) →
    s.state = .ready ∧ t = { s with pending := some ⟨r.status, 0x00000000⟩ }) ∧
  (∀ (status : Status) (s : State), failWith status s = { s with pending := some ⟨status, 0x00000000⟩ })

/-- 42_field_ops.md section 1: every field operation, QSEL with them, raises `Fatal(NOT_READY)` in EMPTY and is refused in FAULT; in
READY it answers without a fatal failure and writes no state. -/
def Obligations.FieldOperationsNeedReady : Prop :=
  ∀ (i : Instr) (s : State), needsReady i = true →
    (s.state = .empty → RaisesFatal i s .notReady) ∧
    (s.state = .fault → Answers i s .fatal (zext32 s.faultCause.code)) ∧
    (s.state = .ready → ∃ status d, status ≠ .fatal ∧ Answers i s status d)

/-- 30_encoding.md R306 and 41_build.md R423: index `k` below 30 selects entry `k`; 30..255 are encodable and raise
`Fatal(INVALID_INDEX)`, with nothing else written, for BUILD, CLMUL, CATVAL and CATGEN. -/
def Obligations.InvalidIndexIsFatal : Prop :=
  (∀ (c : Config) (k : Byte) (h : k.toNat < nCatalog), catalogEntry c k = some (c.catalog[k.toNat]'h)) ∧
  (∀ (i : Instr) (k : Byte) (s : State), indexOperand i = some k → nCatalog ≤ k.toNat → s.state ≠ .fault →
    decodeWord (encode i) = .ok i ∧ RaisesFatal i s .invalidIndex)

/-- 42_field_ops.md R462: every EXP index 0..255 is in range, 255 included, and nothing raises `EXP_RANGE`. -/
def Obligations.ExpRangeIsNeverRaised : Prop :=
  (∀ (i : Byte) (s : State), s.state = .ready → Answers (.exp i) s .ok (zext32 (s.antilog.read i.toNat))) ∧
  (∀ (w : Word) (s t : State), runWord w s = .next t → t.faultCause = .expRange → s.faultCause = .expRange)

/-! ## Field operations -/

/-- 42_field_ops.md R441: ADD, whole. -/
def Obligations.AddIsXor : Prop :=
  ∀ a b : Byte, FieldCommand (.add a b) (0x00#8 ++ b ++ a ++ 0x0#4 ++ 0x2#4) ∧
    ∀ s : State, s.state = .ready →
      exec (.add a b) s = .next { s with pending := some ⟨.ok, zext32 (a ^^^ b)⟩ } ∧ Answers (.add a a) s .ok 0x00000000 ∧
      Answers (.add a 0x00) s .ok (zext32 a) ∧ Answers (.add 0x53 0xCA) s .ok 0x00000099

/-- 42_field_ops.md R442: SUB, whole; identical to ADD. -/
def Obligations.SubIsXor : Prop :=
  ∀ a b : Byte, FieldCommand (.sub a b) (0x00#8 ++ b ++ a ++ 0x0#4 ++ 0x3#4) ∧
    ∀ s : State, s.state = .ready →
      exec (.sub a b) s = .next { s with pending := some ⟨.ok, zext32 (a ^^^ b)⟩ } ∧ Answers (.sub b a) s .ok (zext32 (a ^^^ b)) ∧
      Answers (.sub a a) s .ok 0x00000000 ∧ Answers (.sub 0x57 0x83) s .ok 0x000000D4

/-- 42_field_ops.md R443: MUL, whole. The index stays in 0..508 and 0x01 is its identity in a built field. -/
def Obligations.MulLooksUpSumOfLogs : Prop :=
  ∀ a b : Byte, FieldCommand (.mul a b) (0x00#8 ++ b ++ a ++ 0x0#4 ++ 0x4#4) ∧
    (∀ s : State, s.state = .ready →
      exec (.mul a b) s = .next { s with pending := some ⟨.ok,
        if a = 0x00 ∨ b = 0x00 then 0x00000000
        else zext32 (s.antilog.read ((s.log.read a.toNat).toNat + (s.log.read b.toNat).toNat))⟩ }) ∧
    (∀ (s : State) (e : CatEntry), FieldBuilt s e →
      (a ≠ 0x00 → b ≠ 0x00 → (s.log.read a.toNat).toNat + (s.log.read b.toNat).toNat ≤ 508) ∧
      Answers (.mul a 0x01) s .ok (zext32 a) ∧
      (e = ⟨0x11b, 0x03⟩ → Answers (.mul 0x53 0xCA) s .ok 0x00000001))

/-- 42_field_ops.md R446 and R447: DIV, whole. A zero divisor fails for every dividend, 0 included. -/
def Obligations.DivLooksUpDifferenceOfLogs : Prop :=
  ∀ a b : Byte, FieldCommand (.div a b) (0x00#8 ++ b ++ a ++ 0x0#4 ++ 0x5#4) ∧
    (∀ s : State, s.state = .ready →
      exec (.div a b) s = .next { s with pending := some (
        if b = 0x00 then ⟨.divByZero, 0x00000000⟩
        else if a = 0x00 then ⟨.ok, 0x00000000⟩
        else ⟨.ok, zext32 (s.antilog.read
          (((s.log.read a.toNat).toNat + 255 - (s.log.read b.toNat).toNat) % 255))⟩) }) ∧
    (∀ (s : State) (e : CatEntry), FieldBuilt s e →
      (a ≠ 0x00 → Answers (.div a a) s .ok 0x00000001) ∧ Answers (.div a 0x01) s .ok (zext32 a) ∧
      Answers (.div 0x05 0x00) s .divByZero 0x00000000 ∧
      (e = ⟨0x11b, 0x03⟩ → Answers (.div 0x01 0xCA) s .ok 0x00000053))

/-- 42_field_ops.md R448: INV, whole. -/
def Obligations.InvLooksUpNegatedLog : Prop :=
  ∀ a : Byte, FieldCommand (.inv a) (0x0000#16 ++ a ++ 0x0#4 ++ 0x6#4) ∧
    (∀ s : State, s.state = .ready →
      exec (.inv a) s = .next { s with pending := some (
        if a = 0x00 then ⟨.undefined, 0x00000000⟩
        else ⟨.ok, zext32 (s.antilog.read (255 - (s.log.read a.toNat).toNat))⟩) }) ∧
    (∀ (s : State) (e : CatEntry), FieldBuilt s e →
      (a ≠ 0x00 → 1 ≤ 255 - (s.log.read a.toNat).toNat) ∧ s.log.read 1 = 0x00 ∧
      Answers (.inv 0x01) s .ok 0x00000001 ∧
      (e = ⟨0x11b, 0x03⟩ → Answers (.inv 0x53) s .ok 0x000000CA))

/-- 42_field_ops.md R450 and R453: POW, whole. `Pow(0, 0)` is the parameter; the product of log and exponent is exact. -/
def Obligations.PowLooksUpMultipleOfLog : Prop :=
  ∀ (a : Byte) (n : Half), FieldCommand (.pow a n) (n ++ a ++ 0x0#4 ++ 0x7#4) ∧
    (∀ s : State, s.state = .ready →
      exec (.pow a n) s = .next { s with pending := some ⟨.ok,
        if a = 0x00 then (if n = 0 then zext32 s.config.powZeroZero else 0x00000000)
        else zext32 (s.antilog.read (((s.log.read a.toNat).toNat * n.toNat) % 255))⟩ }) ∧
    (∀ c : Config, c.powZeroZero = 0x00 ∨ c.powZeroZero = 0x01) ∧
    (∀ (s : State) (e : CatEntry), FieldBuilt s e →
      (a ≠ 0x00 → Answers (.pow a 0) s .ok 0x00000001) ∧ Answers (.pow a 1) s .ok (zext32 a) ∧
      (a ≠ 0x00 → Answers (.pow a 255) s .ok 0x00000001 ∧ Answers (.pow a 65535) s .ok 0x00000001) ∧
      (e = ⟨0x11d, 0x02⟩ → Answers (.pow 0x02 8) s .ok 0x0000001D) ∧
      (e = ⟨0x11b, 0x03⟩ → Answers (.pow 0x02 8) s .ok 0x0000001B))

/-- 42_field_ops.md R456: LOG, whole. The result is never 255. -/
def Obligations.LogLooksUpExponent : Prop :=
  ∀ a : Byte, FieldCommand (.log a) (0x0000#16 ++ a ++ 0x0#4 ++ 0x8#4) ∧
    (∀ s : State, s.state = .ready →
      exec (.log a) s = .next { s with pending := some (
        if a = 0x00 then ⟨.undefined, 0x00000000⟩ else ⟨.ok, zext32 (s.log.read a.toNat)⟩) }) ∧
    (∀ (s : State) (e : CatEntry), FieldBuilt s e →
      (a ≠ 0x00 → (s.log.read a.toNat).toNat ≤ 254) ∧ Answers (.log 0x01) s .ok 0x00000000 ∧
      Answers (.log e.gen) s .ok 0x00000001 ∧
      (e = ⟨0x11b, 0x03⟩ → Answers (.log 0x03) s .ok 1 ∧ Answers (.log 0x02) s .ok 25))

/-- 42_field_ops.md R460: EXP, whole. The result is never 0, and index 255 gives `gen^255 = 0x01`. -/
def Obligations.ExpLooksUpPower : Prop :=
  ∀ i : Byte, FieldCommand (.exp i) (0x0000#16 ++ i ++ 0x0#4 ++ 0x9#4) ∧
    (∀ s : State, s.state = .ready →
      exec (.exp i) s = .next { s with pending := some ⟨.ok, zext32 (s.antilog.read i.toNat)⟩ }) ∧
    (∀ (s : State) (e : CatEntry), FieldBuilt s e →
      Answers (.exp 0) s .ok 0x00000001 ∧ Answers (.exp 255) s .ok 0x00000001 ∧ genPow e 255 = 0x01 ∧
      s.antilog.read i.toNat ≠ 0x00 ∧
      (e = ⟨0x11b, 0x03⟩ → Answers (.exp 1) s .ok 0x00000003 ∧ Answers (.exp 254) s .ok 0x000000F6))

/-! ## Catalog operations, BUILD and queries -/

/-- 40_catalog_clmul.md R402: CLMUL, whole, in EMPTY and READY alike, with an index of its own. -/
def Obligations.ClmulMultipliesModuloEntry : Prop :=
  ∀ a b k : Byte, CatalogCommand (.clmul a b k) (k ++ b ++ a ++ 0x0#4 ++ 0xA#4) k ∧
    ∀ (s : State) (e : CatEntry), s.state ≠ .fault → catalogEntry s.config k = some e →
      exec (.clmul a b k) s = .next { s with pending := some ⟨.ok, zext32 (clmul8 a b (e.value.extractLsb' 0 8))⟩ } ∧
      Answers (.clmul 0x00 b k) s .ok 0x00000000 ∧ Answers (.clmul a 0x00 k) s .ok 0x00000000 ∧
      Answers (.clmul a 0x01 k) s .ok (zext32 a) ∧
      (e.value = 0x11b → Answers (.clmul 0x53 0xCA k) s .ok 0x00000001)

/-- 40_catalog_clmul.md R403: CATVAL, whole: nine bits, bit 8 set under 00_scope.md R8. -/
def Obligations.CatvalReadsValue : Prop :=
  ∀ k : Byte, CatalogCommand (.catval k) (0x0000#16 ++ k ++ 0x0#4 ++ 0xC#4) k ∧
    ∀ (s : State) (e : CatEntry), s.state ≠ .fault → catalogEntry s.config k = some e →
      exec (.catval k) s = .next { s with pending := some ⟨.ok, zext32 e.value⟩ } ∧ (zext32 e.value).extractLsb' 9 23 = 0 ∧
      (s.config.WF → (zext32 e.value).getLsbD 8 = true) ∧
      (e.value = 0x11d → Answers (.catval k) s .ok 0x0000011D)

/-- 40_catalog_clmul.md R404: CATGEN, whole: in 1..255 and primitive under 00_scope.md R8. -/
def Obligations.CatgenReadsGenerator : Prop :=
  (∀ k : Byte, CatalogCommand (.catgen k) (0x0000#16 ++ k ++ 0x0#4 ++ 0xD#4) k ∧
    ∀ (s : State) (e : CatEntry), s.state ≠ .fault → catalogEntry s.config k = some e →
      exec (.catgen k) s = .next { s with pending := some ⟨.ok, zext32 e.gen⟩ } ∧ (s.config.WF → e.gen ≠ 0x00 ∧ PrimitiveGen e)) ∧
  (∀ s : State, s.state ≠ .fault → ∃ t, exec (.catgen 30) s = .next t ∧ t.pending = some ⟨.fatal, 0x00000003⟩)

/-- 41_build.md R421: BUILD, whole. In EMPTY or READY with a valid index it writes the powers of the generator to `ANTILOG[0..254]`
and again to `[255..509]`, for each power visited the last exponent to LOG, then SEL and STATE; `ANTILOG[510..511]`, the LOG
entries the walk does not visit and every other register keep their values, and BUSY is 0 again. -/
def Obligations.BuildConstructsTables : Prop :=
  (∀ k : Byte, CatalogCommand (.build k) (0x0000#16 ++ k ++ 0x0#4 ++ 0x1#4) k) ∧
  (∀ (k : Byte) (s : State) (e : CatEntry), s.state ≠ .fault → TablesCanonical s → catalogEntry s.config k = some e →
    ∃ t, exec (.build k) s = .next t ∧ t.pending = some ⟨.ok, 0x00000000⟩ ∧ t.state = .ready ∧ t.sel = k ∧
      t.busy = false ∧ t.faultCause = s.faultCause ∧ t.faultCmd = s.faultCmd ∧ t.inputs = s.inputs ∧
      t.config = s.config ∧
      (∀ i < 255, t.antilog.read i = genPow e i) ∧
      (∀ i, 255 ≤ i → i < 510 → t.antilog.read i = t.antilog.read (i - 255)) ∧
      (∀ i, 510 ≤ i → t.antilog.read i = s.antilog.read i) ∧
      (∀ i < 255, (∀ j, i < j → j < 255 → genPow e j ≠ genPow e i) →
        t.log.read (genPow e i).toNat = BitVec.ofNat 8 i) ∧
      (∀ x, (∀ i < 255, (genPow e i).toNat ≠ x) → t.log.read x = s.log.read x)) ∧
  (∀ e : CatEntry, e.WF → genPow e 255 = 0x01 ∧ ∀ i < 255, genPow e i ≠ 0x00) ∧
  (∀ i < 10, genPow ⟨0x11d, 0x02⟩ i =
    ([0x01, 0x02, 0x04, 0x08, 0x10, 0x20, 0x40, 0x80, 0x1d, 0x3a] : List Byte).getD i 0)

/-- 41_build.md R424: a BUILD in READY replaces the tables and SEL and stays in READY; a BUILD of the field already built, under a
catalog that meets 00_scope.md R8, rewrites the same values. -/
def Obligations.RebuildReplacesField : Prop :=
  (∀ (k : Byte) (s : State), s.Inv → s.state = .ready → k.toNat < nCatalog →
    ∃ t, exec (.build k) s = .next t ∧ t.pending = some ⟨.ok, 0x00000000⟩ ∧ t.state = .ready ∧ t.sel = k ∧
      TablesBuilt t) ∧
  (∀ s : State, s.Inv → s.state = .ready → s.config.WF → Answers (.build s.sel) s .ok 0x00000000)

/-- 43_query.md R481: QSEL, whole. -/
def Obligations.QselReadsSelector : Prop :=
  FieldCommand .qsel 0x0000000B ∧
  (∀ s : State, s.state = .ready → exec .qsel s = .next { s with pending := some ⟨.ok, zext32 s.sel⟩ }) ∧
  (∀ s : State, s.Inv → s.sel.toNat < nCatalog) ∧
  (∀ (k : Byte) (s : State), s.state ≠ .fault → k.toNat < nCatalog →
    ∃ t, exec (.build k) s = .next t ∧ Answers .qsel t .ok (zext32 k))

/-- 43_query.md R482: QSTAT, whole, in every state. -/
def Obligations.QstatReadsStatus : Prop :=
  encode .qstat = 0x0000000E ∧ ReservedBitsFatal 0xE ∧
  (∀ (w : Word) (s : State), fieldOP w = 0xE → HasReservedBit w → s.state = .fault →
    runWord w s = .next { s with pending := some ⟨.fatal, zext32 s.faultCause.code⟩ }) ∧
  (∀ s : State, exec .qstat s =
    .next { s with pending := some ⟨.ok, 0x0000#16 ++ s.sel ++ s.faultCause.code ++ 0b00#2 ++ s.state.code⟩ }) ∧
  (∀ c : Config, Answers .qstat (State.resetWith c) .ok 0x00000000 ∧
    (∃ t, exec (.mul 1 2) (State.resetWith c) = .next t ∧ Answers .qstat t .ok 0x00000042) ∧
    (∃ t, exec (.build 1) (State.resetWith c) = .next t ∧ Answers .qstat t .ok 0x00000101))

/-- 43_query.md R483: QFCMD, whole, in every state. -/
def Obligations.QfcmdReadsFaultingWord : Prop :=
  encode .qfcmd = 0x0000000F ∧ ReservedBitsFatal 0xF ∧
  (∀ (w : Word) (s : State), fieldOP w = 0xF → HasReservedBit w → s.state = .fault →
    runWord w s = .next { s with pending := some ⟨.fatal, zext32 s.faultCause.code⟩ }) ∧
  (∀ s : State, exec .qfcmd s = .next { s with pending := some ⟨.ok, s.faultCmd⟩ }) ∧
  (∀ s : State, s.Inv → s.state ≠ .fault → Answers .qfcmd s .ok 0x00000000) ∧
  (∀ (w v : Word) (s t u : State), s.state ≠ .fault → runWord w s = .next t → t.state = .fault →
    runWord v t = .next u → Answers .qfcmd u .ok w) ∧
  (∀ c : Config, ∃ t, runWord 0x00001E01 (State.resetWith c) = .next t ∧ Answers .qfcmd t .ok 0x00001E01)

/-! ## Frames and constants -/

/-- 20_memory.md R208: every command except BUILD, outside the fatal path, leaves all state unchanged but for its response, and
repeating it gives the same response; a second BUILD with the same index changes nothing; and a word answered FATAL, repeated, is
answered so again and changes nothing (60_exceptions.md R610, R612). -/
def Obligations.CommandsExceptBuildChangeNothing : Prop :=
  (∀ (i : Instr) (s t : State) (r : Response), (∀ k, i ≠ .build k) → exec i s = .next t → t.pending = some r →
    r.status ≠ .fatal →
    t = { s with pending := some r } ∧ exec i { t with pending := none } = .next t) ∧
  (∀ (k : Byte) (s t : State), TablesCanonical s → s.state ≠ .fault → k.toNat < nCatalog →
    exec (.build k) s = .next t → exec (.build k) { t with pending := none } = .next t) ∧
  (∀ (w : Word) (s t : State) (d : Word), runWord w s = .next t → t.pending = some ⟨.fatal, d⟩ →
    runWord w { t with pending := none } = .next t)

/-- 10_state.md section 4 (R111): the tables change only by a BUILD of a valid index, or by reset cutting one short; every other
accepted word leaves every entry as it was. That a step with `rst` keeps the tables is the model's choice (log entry 3). -/
def Obligations.OnlyBuildWritesTables : Prop :=
  (∀ (w : Word) (s t : State), runWord w s = .next t →
    (∀ k : Byte, w = encode (.build k) → s.state = .fault ∨ nCatalog ≤ k.toNat) →
    t.antilog = s.antilog ∧ t.log = s.log) ∧
  (∀ (s t : State) (x : HostInput) (rest : List HostInput), s.inputs = x :: rest → step s = .next t →
    (x.rst = .asserted ∨ cmdReady x s = false ∨ ∀ k : Byte, x.cmd ≠ some (encode (.build k))) →
    t.antilog = s.antilog ∧ t.log = s.log)

/-- 20_memory.md section 5: the catalog, and `POW_ZERO_ZERO` with it, never changes. That the state carries them is the model's
choice (log entry 1). -/
def Obligations.ParametersAreConstant : Prop := ∀ s t : State, step s = .next t → t.config = s.config

/-! ## Invariants -/

/-- The invariant of the engine holds right after reset, for every catalog (10_state.md section 2). The tables' contents there, and
the catalog of `State.reset`, are the model's choice (log entries 2 and 1). -/
def Obligations.ResetEstablishesInvariant : Prop := State.reset.Inv ∧ ∀ c : Config, (State.resetWith c).Inv

/-- Every step keeps the invariant of the engine: the tables stay canonical and, in READY, those of SEL; the registers and the
pending response stay legal (10_state.md sections 2 to 5). -/
def Obligations.StepKeepsInvariant : Prop := ∀ s t : State, s.Inv → step s = .next t → t.Inv

/-- 10_state.md R109: the invariants of the tables in READY. -/
def Obligations.ReadyTablesAreInverse : Prop :=
  ∀ s : State, s.Inv → s.state = .ready → s.config.WF →
    (∀ x : Byte, x ≠ 0x00 → ∃ i < 255, s.antilog.read i = x ∧ ∀ j < 255, s.antilog.read j = x → j = i) ∧
    (∀ i < 255, s.antilog.read i ≠ 0x00 ∧ s.log.read (s.antilog.read i).toNat = BitVec.ofNat 8 i) ∧
    (∀ x : Byte, x ≠ 0x00 → s.antilog.read (s.log.read x.toNat).toNat = x) ∧
    (∀ i < 255, s.antilog.read (i + 255) = s.antilog.read i)

/-- 42_field_ops.md R444: in READY the antilog table has period 255 on 0..509, so MUL may take the sum of the logs `mod 255`. -/
def Obligations.AntilogTableIsPeriodic : Prop :=
  ∀ s : State, s.Inv → s.state = .ready →
    (∀ i < 510, s.antilog.read i = s.antilog.read (i % 255)) ∧
    (s.config.WF → ∀ a b : Byte, a ≠ 0x00 → b ≠ 0x00 →
      Answers (.mul a b) s .ok (zext32 (s.antilog.read
        (((s.log.read a.toNat).toNat + (s.log.read b.toNat).toNat) % 255))))

/-- The table indices of the field operations stay inside the tables: in every state below 512, and in a built field within the
ranges of 20_memory.md section 4 and 42_field_ops.md section 6. -/
def Obligations.TableIndicesStayInRange : Prop :=
  (∀ (la lb : Byte) (n : Half), mulIndex la lb < antilogSize ∧ divIndex la lb < 255 ∧ invIndex la < 256 ∧
    powIndex la n < 255 ∧ la.toNat < logSize) ∧
  (∀ (s : State) (e : CatEntry), FieldBuilt s e → ∀ a b : Byte, a ≠ 0x00 → b ≠ 0x00 →
    mulIndex (logOf s a) (logOf s b) ≤ 508 ∧ 1 ≤ invIndex (logOf s a) ∧ invIndex (logOf s a) ≤ 255 ∧
    (invIndex (logOf s a) = 255 ↔ a = 0x01))

/-- 10_state.md R110: in READY, the table entries a command can read, and what a command answers and does to the registers and to
those entries, depend only on SEL, the parameters and the command word. -/
def Obligations.ResponsesDependOnlyOnSelector : Prop :=
  ∀ s u : State, s.Inv → u.Inv → s.state = .ready → u.state = .ready → s.sel = u.sel → s.config = u.config →
    s.config.WF →
    (∀ i < 510, s.antilog.read i = u.antilog.read i) ∧ (∀ x < 256, x ≠ 0 → s.log.read x = u.log.read x) ∧
    ∀ w : Word, ∃ t v, runWord w s = .next t ∧ runWord w u = .next v ∧ t.pending = v.pending ∧ t.state = v.state ∧
      t.sel = v.sel ∧ t.faultCause = v.faultCause ∧ t.faultCmd = v.faultCmd ∧
      (∀ i < 510, t.antilog.read i = v.antilog.read i) ∧ ∀ x < 256, x ≠ 0 → t.log.read x = v.log.read x

/-! ## Field arithmetic -/

/-- 40_catalog_clmul.md R405: `clmul8` is the polynomial product modulo `0x100 | m`, its loop invariant, its laws, and inverses for
an irreducible modulus. -/
def Obligations.ClmulIsPolynomialProduct : Prop :=
  (∀ (a b m : Byte) (k : Nat), k ≤ 8 →
    (clmulLoop a b m k).2.toNat = polyModFrom (256 + m.toNat) 8 k (a.toNat <<< k)) ∧
  (∀ a b m : Byte, (clmul8 a b m).toNat = polyModFrom (256 + m.toNat) 8 7 (polyMul a.toNat b.toNat 8)) ∧
  (∀ a m : Byte, clmul8 a 0x00 m = 0x00 ∧ clmul8 0x00 a m = 0x00 ∧ clmul8 a 0x01 m = a ∧ clmul8 0x01 a m = a) ∧
  (∀ a b m : Byte, clmul8 a b m = clmul8 b a m) ∧
  (∀ a b c m : Byte, clmul8 (clmul8 a b m) c m = clmul8 a (clmul8 b c m) m) ∧
  (∀ a b c m : Byte, clmul8 a (b ^^^ c) m = clmul8 a b m ^^^ clmul8 a c m) ∧
  (∀ v : BitVec 9, IrreducibleValue v → ∀ a : Byte, a ≠ 0x00 →
    ∃ b, clmul8 a b (v.extractLsb' 0 8) = 0x01 ∧ ∀ c, clmul8 a c (v.extractLsb' 0 8) = 0x01 → c = b)

/-- 40_catalog_clmul.md R407: the worked trace of `clmul8(0x53, 0xCA, 0x1B)`, `acc` and `x` after each iteration. -/
def Obligations.MultiplierTrace : Prop :=
  (List.range 9).map (clmulLoop 0x53 0xCA 0x1B) =
    [(0x00, 0x53), (0x00, 0xa6), (0xa6, 0x57), (0xa6, 0xae), (0x08, 0x47), (0x08, 0x8e), (0x08, 0x07), (0x0f, 0x0e),
      (0x01, 0x1c)] ∧
  clmul8 0x53 0xCA 0x1B = 0x01

/-- 20_memory.md R212: exactly the listed 30 values are irreducible, and a catalog of pairwise distinct values that meets
00_scope.md R8 holds each of them. -/
def Obligations.IrreducibleValuesAreTheThirty : Prop :=
  ∃ l : List (BitVec 9), l = [0x11b, 0x11d, 0x12b, 0x12d, 0x139, 0x13f, 0x14d, 0x15f, 0x163, 0x165] ++
      [0x169, 0x171, 0x177, 0x17b, 0x187, 0x18b, 0x18d, 0x19f, 0x1a3, 0x1a9] ++
      [0x1b1, 0x1bd, 0x1c3, 0x1cf, 0x1d7, 0x1dd, 0x1e7, 0x1f3, 0x1f5, 0x1f9] ∧
    l.length = nCatalog ∧ (∀ v : BitVec 9, IrreducibleValue v ↔ v ∈ l) ∧
    ∀ c : Config, c.WF →
      (∀ j k : Fin nCatalog, (c.catalog[j.val]'j.isLt).value = (c.catalog[k.val]'k.isLt).value → j = k) →
      ∀ v ∈ l, ∃ k : Fin nCatalog, (c.catalog[k.val]'k.isLt).value = v

/-- 20_memory.md R213: under 16 of the 30 values `0x02` is primitive and under the other 14 it is not; under 0x11b its powers repeat
after 51 steps. -/
def Obligations.FixedGeneratorFailsForFourteen : Prop :=
  (∀ v ∈ ([0x11d, 0x12b, 0x12d, 0x14d, 0x15f, 0x163, 0x165, 0x169] ++
      [0x171, 0x187, 0x18d, 0x1a9, 0x1c3, 0x1cf, 0x1e7, 0x1f5] : List (BitVec 9)), PrimitiveGen ⟨v, 0x02⟩) ∧
  (∀ v ∈ ([0x11b, 0x139, 0x13f, 0x177, 0x17b, 0x18b, 0x19f] ++
      [0x1a3, 0x1b1, 0x1bd, 0x1d7, 0x1dd, 0x1f3, 0x1f9] : List (BitVec 9)), ¬ PrimitiveGen ⟨v, 0x02⟩) ∧
  genPow ⟨0x11b, 0x02⟩ 51 = 0x01 ∧ ∀ i < 51, i ≠ 0 → genPow ⟨0x11b, 0x02⟩ i ≠ 0x01

/-- 42_field_ops.md R452: POW depends on `n` only through `n mod 255`, for a nonzero base the field power, and for base 0 on
whether `n` is 0. -/
def Obligations.PowDependsOnExponentMod255 : Prop :=
  (∀ (a : Byte) (n n' : Half) (s : State), s.state = .ready → a ≠ 0x00 → n.toNat % 255 = n'.toNat % 255 →
    ∃ d, Answers (.pow a n) s .ok d ∧ Answers (.pow a n') s .ok d) ∧
  (∀ (n n' : Half) (s : State), s.state = .ready → (n = 0 ↔ n' = 0) →
    ∃ d, Answers (.pow 0x00 n) s .ok d ∧ Answers (.pow 0x00 n') s .ok d) ∧
  (∀ (s : State) (e : CatEntry), FieldBuilt s e → ∀ a : Byte, a ≠ 0x00 →
    (s.log.read a.toNat).toNat * 65535 ≤ 16645890 ∧ Answers (.pow a 0) s .ok 0x00000001 ∧
    ∀ n : Half, Answers (.pow a n) s .ok (zext32 (clmulPow e.low a n.toNat)))

/-- 42_field_ops.md R470: the laws of the field operations in READY, for every catalog that meets 00_scope.md R8. -/
def Obligations.FieldOperationsObeyFieldLaws : Prop :=
  ∀ (s : State) (e : CatEntry), FieldBuilt s e →
    (∀ a b : Byte, Answers (.add a b) s .ok (zext32 (a ^^^ b)) ∧ Answers (.add b a) s .ok (zext32 (a ^^^ b)) ∧
      Answers (.sub a a) s .ok 0x00000000) ∧
    (∀ a b : Byte, b ≠ 0x00 → ∃ c : Byte, Answers (.mul a b) s .ok (zext32 c) ∧ Answers (.div c b) s .ok (zext32 a)) ∧
    (∀ a : Byte, a ≠ 0x00 → ∃ q : Byte, Answers (.inv a) s .ok (zext32 q) ∧ Answers (.mul a q) s .ok 0x00000001 ∧
      Answers (.mul q a) s .ok 0x00000001) ∧
    (∀ a : Byte, a ≠ 0x00 → ∃ i : Byte, Answers (.log a) s .ok (zext32 i) ∧ Answers (.exp i) s .ok (zext32 a)) ∧
    (Answers (.log 0x00) s .undefined 0x00000000 ∧ Answers (.inv 0x00) s .undefined 0x00000000 ∧
      ∀ x : Byte, Answers (.div x 0x00) s .divByZero 0x00000000) ∧
    (∀ y : Byte, y ≠ 0x00 → ∃ i : Byte, i.toNat < 255 ∧ Answers (.exp i) s .ok (zext32 y) ∧
      ∀ j : Byte, j.toNat < 255 → Answers (.exp j) s .ok (zext32 y) → j = i) ∧
    (∀ i : Byte, ∃ y : Byte, y ≠ 0x00 ∧ Answers (.exp i) s .ok (zext32 y)) ∧
    (∀ a b c : Byte, ∃ p q : Byte, Answers (.mul a b) s .ok (zext32 p) ∧ Answers (.mul a c) s .ok (zext32 q) ∧
      Answers (.mul a (b ^^^ c)) s .ok (zext32 (p ^^^ q))) ∧
    (∀ a : Byte, a ≠ 0x00 → Answers (.pow a 0) s .ok 0x00000001) ∧
    (∀ a b c : Byte, ∃ p q r : Byte, Answers (.mul a b) s .ok (zext32 p) ∧ Answers (.mul b a) s .ok (zext32 p) ∧
      Answers (.mul b c) s .ok (zext32 q) ∧ Answers (.mul p c) s .ok (zext32 r) ∧ Answers (.mul a q) s .ok (zext32 r)) ∧
    (∀ a : Byte, Answers (.mul a 0x01) s .ok (zext32 a) ∧ Answers (.mul a 0x00) s .ok 0x00000000)

/-- 42_field_ops.md R471: the table-driven operations are those of the carry-less multiplier of the built modulus. -/
def Obligations.TableArithmeticIsFieldArithmetic : Prop :=
  ∀ (s : State) (e : CatEntry), FieldBuilt s e →
    (∀ a b : Byte, Answers (.mul a b) s .ok (zext32 (clmul8 a b e.low)) ∧
      Answers (.clmul a b s.sel) s .ok (zext32 (clmul8 a b e.low))) ∧
    (∀ a b : Byte, b ≠ 0x00 → ∃ q : Byte, Answers (.div a b) s .ok (zext32 q) ∧ clmul8 q b e.low = a ∧
      ∀ q', clmul8 q' b e.low = a → q' = q) ∧
    (∀ a : Byte, a ≠ 0x00 → ∃ q : Byte, Answers (.inv a) s .ok (zext32 q) ∧ clmul8 a q e.low = 0x01 ∧
      ∀ q', clmul8 a q' e.low = 0x01 → q' = q) ∧
    (∀ (a : Byte) (n : Half), a ≠ 0x00 → Answers (.pow a n) s .ok (zext32 (clmulPow e.low a n.toNat)))

/-- 42_field_ops.md R473: for a fixed modulus the results of ADD, SUB, MUL, DIV, INV and POW do not depend on the generator; EXP,
LOG and CATGEN are the generator's powers, logarithm and itself. -/
def Obligations.ResultsIndependentOfGenerator : Prop :=
  (∀ (s u : State) (e f : CatEntry), FieldBuilt s e → FieldBuilt u f → e.value = f.value →
    s.config.powZeroZero = u.config.powZeroZero →
    ∀ (a b : Byte) (n : Half), ∀ i ∈ ([.add a b, .sub a b, .mul a b, .div a b, .inv a, .pow a n] : List Instr),
      ∃ status d, Answers i s status d ∧ Answers i u status d) ∧
  (∀ (s : State) (e : CatEntry), FieldBuilt s e →
    (∀ i : Byte, Answers (.exp i) s .ok (zext32 (genPow e i.toNat))) ∧
    (∀ a : Byte, a ≠ 0x00 → ∃ i : Byte, i.toNat < 255 ∧ genPow e i.toNat = a ∧ Answers (.log a) s .ok (zext32 i)) ∧
    Answers (.catgen s.sel) s .ok (zext32 e.gen))
end

