-- ==== Sys2Proof/Laws/Memory.lean ====
section
/-! SUPPORT. The table memories: a read after a write, and the canonical form. -/
namespace Sys2Proof.Machine

/-- In canonical form, an index below every listed one reads as unlisted. -/
theorem Memory.read_below {m : Memory} {i : Nat} (h : ∀ c ∈ m, i < c.1) : m.read i = Memory.unlisted := by
  induction m with
  | nil => rfl
  | cons c rest ih =>
    obtain ⟨j, u⟩ := c
    have hj : i < j := h (j, u) (by simp)
    have : j ≠ i := by omega
    simp only [Memory.read, this, if_false]
    exact ih fun d hd => h d (List.mem_cons_of_mem _ hd)

/-- A read at the index just written gives the value written. -/
theorem Memory.read_write_same {size : Nat} {m : Memory} (h : Memory.wf size m) (i : Nat) (v : Byte) :
    (m.write i v).read i = v := by
  induction m with
  | nil => by_cases hv : v = Memory.unlisted <;> simp [Memory.write, Memory.read, hv]
  | cons c rest ih =>
    obtain ⟨j, u⟩ := c
    have hrest : Memory.wf size rest := ⟨(List.pairwise_cons.1 h.1).2, fun d hd => h.2 d (List.mem_cons_of_mem _ hd)⟩
    have habove : ∀ d ∈ rest, j < d.1 := (List.pairwise_cons.1 h.1).1
    unfold Memory.write
    split
    next hlt =>
      have : j ≠ i := by omega
      simp only [Memory.read, this, if_false]
      exact ih hrest
    next hge =>
      split
      next heq =>
        subst heq
        split
        next hv => rw [Memory.read_below habove, hv]
        next => simp [Memory.read]
      next hne =>
        split
        next hv =>
          rw [Memory.read_below (i := i), hv]
          intro d hd
          rcases List.mem_cons.1 hd with rfl | hd
          · show i < j; omega
          · have := habove d hd; omega
        next => simp [Memory.read]

/-- A write leaves every other index as it was. -/
theorem Memory.read_write_other {m : Memory} {i k : Nat} (hk : k ≠ i) (v : Byte) :
    (m.write i v).read k = m.read k := by
  induction m with
  | nil =>
    have : i ≠ k := fun h => hk h.symm
    by_cases hv : v = Memory.unlisted <;> simp [Memory.write, Memory.read, hv, this]
  | cons c rest ih =>
    obtain ⟨j, u⟩ := c
    have hik : i ≠ k := fun h => hk h.symm
    unfold Memory.write
    split
    next => simp only [Memory.read, ih]
    next =>
      split
      next heq => subst heq; split <;> simp [Memory.read, hik]
      next => split <;> simp [Memory.read, hik]

/-- A write keeps the indices it had and its own. -/
theorem Memory.mem_write {m : Memory} {i : Nat} {v : Byte} {d : Host.Cell} (h : d ∈ m.write i v) :
    d ∈ m ∨ (d = (i, v) ∧ v ≠ Memory.unlisted) := by
  induction m with
  | nil => by_cases hv : v = Memory.unlisted <;> simp_all [Memory.write]
  | cons c rest ih =>
    obtain ⟨j, u⟩ := c
    unfold Memory.write at h
    split at h
    next =>
      rcases List.mem_cons.1 h with rfl | h
      · exact .inl (by simp)
      · exact (ih h).imp (List.mem_cons_of_mem _) id
    next => split at h <;> split at h <;> simp_all <;> tauto

/-- A write inside the table keeps the canonical form. -/
theorem Memory.wf_write {size : Nat} {m : Memory} (h : Memory.wf size m) {i : Nat} (hi : i < size) (v : Byte) :
    Memory.wf size (m.write i v) := by
  refine ⟨?_, fun d hd => ?_⟩
  · have hp := h.1
    clear h
    induction m with
    | nil => by_cases hv : v = Memory.unlisted <;> simp [Memory.write, hv]
    | cons c rest ih =>
      obtain ⟨j, u⟩ := c
      obtain ⟨habove, hrest⟩ := List.pairwise_cons.1 hp
      unfold Memory.write
      split
      next hlt =>
        refine List.pairwise_cons.2 ⟨fun d hd => ?_, ih hrest⟩
        rcases Memory.mem_write hd with hd | ⟨rfl, -⟩
        · exact habove d hd
        · exact hlt
      next hge =>
        split
        next heq =>
          subst heq
          split
          next => exact hrest
          next => exact List.pairwise_cons.2 ⟨habove, hrest⟩
        next hne =>
          split
          next => exact hp
          next =>
            refine List.pairwise_cons.2 ⟨fun d hd => ?_, hp⟩
            rcases List.mem_cons.1 hd with rfl | hd
            · show i < j; omega
            · have := habove d hd
              show i < d.1; simp only at this; omega
  · rcases Memory.mem_write hd with hd | ⟨rfl, hv⟩
    · exact h.2 d hd
    · exact ⟨hi, hv⟩

/-- The empty table is canonical. -/
theorem Memory.wf_nil (size : Nat) : Memory.wf size ([] : Memory) := by simp [Memory.wf]

/-- Canonical memories that read alike are equal. -/
theorem Memory.eq_of_read {size : Nat} {m m' : Memory} (h : Memory.wf size m) (h' : Memory.wf size m')
    (hr : ∀ i, m.read i = m'.read i) : m = m' := by
  induction m generalizing m' with
  | nil =>
    cases m' with
    | nil => rfl
    | cons c rest =>
      have := hr c.1
      simp only [Memory.read, if_true] at this
      exact absurd this.symm (h'.2 c (by simp)).2
  | cons c rest ih =>
    have hc := h.2 c (by simp)
    have hpw := List.pairwise_cons.1 h.1
    cases m' with
    | nil =>
      have := hr c.1
      simp only [Memory.read, if_true] at this
      exact absurd this hc.2
    | cons d rest' =>
      have hd := h'.2 d (by simp)
      have hpw' := List.pairwise_cons.1 h'.1
      have hcd : c.1 = d.1 := by
        rcases Nat.lt_trichotomy c.1 d.1 with hlt | heq | hgt
        · have := hr c.1
          rw [Memory.read_below (m := d :: rest') (by
            intro x hx
            rcases List.mem_cons.1 hx with rfl | hx
            · exact hlt
            · exact Nat.lt_trans hlt (hpw'.1 x hx))] at this
          simp only [Memory.read, if_true] at this
          exact absurd this hc.2
        · exact heq
        · have := hr d.1
          rw [Memory.read_below (m := c :: rest) (by
            intro x hx
            rcases List.mem_cons.1 hx with rfl | hx
            · exact hgt
            · exact Nat.lt_trans hgt (hpw.1 x hx))] at this
          simp only [Memory.read, if_true] at this
          exact absurd this.symm hd.2
      have heq : c = d := by
        have := hr c.1
        simp only [Memory.read, hcd, if_true] at this
        exact Prod.ext hcd this
      subst heq
      rw [ih ⟨hpw.2, fun x hx => h.2 x (by simp [hx])⟩ ⟨hpw'.2, fun x hx => h'.2 x (by simp [hx])⟩ fun i => ?_]
      have := hr i
      simp only [Memory.read] at this
      split at this
      next hi =>
        subst hi
        rw [Memory.read_below hpw.1, Memory.read_below hpw'.1]
      next => exact this

end Sys2Proof.Machine
end

