-- ==== Sys2Proof/Laws/Build.lean ====
section
/-! SUPPORT. The loops of BUILD, by induction on the number of iterations. -/
namespace Sys2Proof.Machine

/-- `cur` after `n` iterations is the `n`-th power of the generator. -/
theorem walk_cur (e : CatEntry) (al lg : Memory) (n : Nat) : (walk e al lg n).cur = genPow e n := by
  induction n with
  | zero => rfl
  | succ n ih => simp [walk, walkStep, genPow, ih]

/-- One iteration's writes, with `cur` resolved. -/
theorem walk_succ (e : CatEntry) (al lg : Memory) (n : Nat) :
    (walk e al lg (n + 1)).antilog = (walk e al lg n).antilog.write n (genPow e n) ∧
    (walk e al lg (n + 1)).log = (walk e al lg n).log.write (genPow e n).toNat (BitVec.ofNat 8 n) := by
  simp [walk, walkStep, walk_cur]

/-- The walk keeps both canonical forms. -/
theorem walk_wf (e : CatEntry) {al lg : Memory} (ha : Memory.wf antilogSize al) (hl : Memory.wf logSize lg)
    {n : Nat} (hn : n ≤ antilogSize) :
    Memory.wf antilogSize (walk e al lg n).antilog ∧ Memory.wf logSize (walk e al lg n).log := by
  induction n with
  | zero => exact ⟨ha, hl⟩
  | succ n ih =>
    obtain ⟨h1, h2⟩ := ih (by omega)
    rw [(walk_succ e al lg n).1, (walk_succ e al lg n).2]
    exact ⟨Memory.wf_write h1 (by omega) _, Memory.wf_write h2 (genPow e n).isLt _⟩

/-- The walk leaves the antilog entries it has not reached. -/
theorem walk_antilog_other (e : CatEntry) (al lg : Memory) {n i : Nat} (hi : n ≤ i) :
    (walk e al lg n).antilog.read i = al.read i := by
  induction n with
  | zero => rfl
  | succ n ih => rw [(walk_succ e al lg n).1, Memory.read_write_other (by omega), ih (by omega)]

/-- The walk leaves the log entries it has not visited. -/
theorem walk_log_other (e : CatEntry) (al lg : Memory) {n x : Nat} (hx : ∀ i < n, (genPow e i).toNat ≠ x) :
    (walk e al lg n).log.read x = lg.read x := by
  induction n with
  | zero => rfl
  | succ n ih =>
    rw [(walk_succ e al lg n).2, Memory.read_write_other (fun h => hx n (by omega) h.symm),
      ih fun i hi => hx i (by omega)]

/-- The walk writes the powers of the generator. -/
theorem walk_antilog (e : CatEntry) {al lg : Memory} (ha : Memory.wf antilogSize al) (hl : Memory.wf logSize lg)
    {n i : Nat} (hn : n ≤ antilogSize) (hi : i < n) : (walk e al lg n).antilog.read i = genPow e i := by
  induction n with
  | zero => omega
  | succ n ih =>
    rw [(walk_succ e al lg n).1]
    by_cases h : i = n
    · subst h
      exact Memory.read_write_same (walk_wf e ha hl (by omega : i ≤ antilogSize)).1 _ _
    · rw [Memory.read_write_other h]
      exact ih (by omega) (by omega)

/-- The copy keeps the canonical form. -/
theorem copyBack_wf {m : Memory} (hm : Memory.wf antilogSize m) {n : Nat} (hn : n ≤ 257) :
    Memory.wf antilogSize (copyBack m n) := by
  induction n with
  | zero => exact hm
  | succ n ih => exact Memory.wf_write (ih (by omega)) (by simp only [antilogSize]; omega) _

/-- The copy leaves every entry outside 255..254+n. -/
theorem copyBack_other (m : Memory) {n i : Nat} (hi : i < 255 ∨ 255 + n ≤ i) : (copyBack m n).read i = m.read i := by
  induction n with
  | zero => rfl
  | succ n ih => rw [copyBack, Memory.read_write_other (by omega), ih (by omega)]

/-- The copy's entry 255+i is entry i. -/
theorem copyBack_copied {m : Memory} (hm : Memory.wf antilogSize m) {n i : Nat} (hn : n ≤ 255) (hi : i < n) :
    (copyBack m n).read (255 + i) = m.read i := by
  induction n with
  | zero => omega
  | succ n ih =>
    rw [copyBack]
    by_cases h : i = n
    · subst h
      rw [Memory.read_write_same (copyBack_wf hm (by omega)), copyBack_other m (by omega)]
    · rw [Memory.read_write_other (by omega)]
      exact ih (by omega) (by omega)

end Sys2Proof.Machine
end

