-- ==== Sys2Proof/Laws/State.lean ====
section
/-! SUPPORT. One lemma for each field and each update of the state, so that no proof unfolds a record update. -/
namespace Sys2Proof.Machine

variable (s : State)

@[simp] theorem State.setPending_state (r : Option Response) : (s.setPending r).state = s.state := rfl
@[simp] theorem State.setPending_sel (r : Option Response) : (s.setPending r).sel = s.sel := rfl
@[simp] theorem State.setPending_faultCause (r : Option Response) : (s.setPending r).faultCause = s.faultCause := rfl
@[simp] theorem State.setPending_faultCmd (r : Option Response) : (s.setPending r).faultCmd = s.faultCmd := rfl
@[simp] theorem State.setPending_antilog (r : Option Response) : (s.setPending r).antilog = s.antilog := rfl
@[simp] theorem State.setPending_log (r : Option Response) : (s.setPending r).log = s.log := rfl
@[simp] theorem State.setPending_busy (r : Option Response) : (s.setPending r).busy = s.busy := rfl
@[simp] theorem State.setPending_pending (r : Option Response) : (s.setPending r).pending = r := rfl
@[simp] theorem State.setPending_inputs (r : Option Response) : (s.setPending r).inputs = s.inputs := rfl
@[simp] theorem State.setPending_config (r : Option Response) : (s.setPending r).config = s.config := rfl

@[simp] theorem State.setBusy_state (b : Bool) : (s.setBusy b).state = s.state := rfl
@[simp] theorem State.setBusy_sel (b : Bool) : (s.setBusy b).sel = s.sel := rfl
@[simp] theorem State.setBusy_faultCause (b : Bool) : (s.setBusy b).faultCause = s.faultCause := rfl
@[simp] theorem State.setBusy_faultCmd (b : Bool) : (s.setBusy b).faultCmd = s.faultCmd := rfl
@[simp] theorem State.setBusy_antilog (b : Bool) : (s.setBusy b).antilog = s.antilog := rfl
@[simp] theorem State.setBusy_log (b : Bool) : (s.setBusy b).log = s.log := rfl
@[simp] theorem State.setBusy_busy (b : Bool) : (s.setBusy b).busy = b := rfl
@[simp] theorem State.setBusy_pending (b : Bool) : (s.setBusy b).pending = s.pending := rfl
@[simp] theorem State.setBusy_inputs (b : Bool) : (s.setBusy b).inputs = s.inputs := rfl
@[simp] theorem State.setBusy_config (b : Bool) : (s.setBusy b).config = s.config := rfl

@[simp] theorem State.setTables_state (t u : Memory) : (s.setTables t u).state = s.state := rfl
@[simp] theorem State.setTables_sel (t u : Memory) : (s.setTables t u).sel = s.sel := rfl
@[simp] theorem State.setTables_faultCause (t u : Memory) : (s.setTables t u).faultCause = s.faultCause := rfl
@[simp] theorem State.setTables_faultCmd (t u : Memory) : (s.setTables t u).faultCmd = s.faultCmd := rfl
@[simp] theorem State.setTables_antilog (t u : Memory) : (s.setTables t u).antilog = t := rfl
@[simp] theorem State.setTables_log (t u : Memory) : (s.setTables t u).log = u := rfl
@[simp] theorem State.setTables_busy (t u : Memory) : (s.setTables t u).busy = s.busy := rfl
@[simp] theorem State.setTables_pending (t u : Memory) : (s.setTables t u).pending = s.pending := rfl
@[simp] theorem State.setTables_inputs (t u : Memory) : (s.setTables t u).inputs = s.inputs := rfl
@[simp] theorem State.setTables_config (t u : Memory) : (s.setTables t u).config = s.config := rfl

@[simp] theorem State.setField_state (k : Byte) : (s.setField k).state = .ready := rfl
@[simp] theorem State.setField_sel (k : Byte) : (s.setField k).sel = k := rfl
@[simp] theorem State.setField_faultCause (k : Byte) : (s.setField k).faultCause = s.faultCause := rfl
@[simp] theorem State.setField_faultCmd (k : Byte) : (s.setField k).faultCmd = s.faultCmd := rfl
@[simp] theorem State.setField_antilog (k : Byte) : (s.setField k).antilog = s.antilog := rfl
@[simp] theorem State.setField_log (k : Byte) : (s.setField k).log = s.log := rfl
@[simp] theorem State.setField_busy (k : Byte) : (s.setField k).busy = s.busy := rfl
@[simp] theorem State.setField_pending (k : Byte) : (s.setField k).pending = s.pending := rfl
@[simp] theorem State.setField_inputs (k : Byte) : (s.setField k).inputs = s.inputs := rfl
@[simp] theorem State.setField_config (k : Byte) : (s.setField k).config = s.config := rfl

@[simp] theorem State.setFault_state (c : FaultCause) (w : Word) : (s.setFault c w).state = .fault := rfl
@[simp] theorem State.setFault_sel (c : FaultCause) (w : Word) : (s.setFault c w).sel = s.sel := rfl
@[simp] theorem State.setFault_faultCause (c : FaultCause) (w : Word) : (s.setFault c w).faultCause = c := rfl
@[simp] theorem State.setFault_faultCmd (c : FaultCause) (w : Word) : (s.setFault c w).faultCmd = w := rfl
@[simp] theorem State.setFault_antilog (c : FaultCause) (w : Word) : (s.setFault c w).antilog = s.antilog := rfl
@[simp] theorem State.setFault_log (c : FaultCause) (w : Word) : (s.setFault c w).log = s.log := rfl
@[simp] theorem State.setFault_busy (c : FaultCause) (w : Word) : (s.setFault c w).busy = s.busy := rfl
@[simp] theorem State.setFault_pending (c : FaultCause) (w : Word) : (s.setFault c w).pending = s.pending := rfl
@[simp] theorem State.setFault_inputs (c : FaultCause) (w : Word) : (s.setFault c w).inputs = s.inputs := rfl
@[simp] theorem State.setFault_config (c : FaultCause) (w : Word) : (s.setFault c w).config = s.config := rfl

@[simp] theorem State.setInputs_state (l : List HostInput) : (s.setInputs l).state = s.state := rfl
@[simp] theorem State.setInputs_sel (l : List HostInput) : (s.setInputs l).sel = s.sel := rfl
@[simp] theorem State.setInputs_faultCause (l : List HostInput) : (s.setInputs l).faultCause = s.faultCause := rfl
@[simp] theorem State.setInputs_faultCmd (l : List HostInput) : (s.setInputs l).faultCmd = s.faultCmd := rfl
@[simp] theorem State.setInputs_antilog (l : List HostInput) : (s.setInputs l).antilog = s.antilog := rfl
@[simp] theorem State.setInputs_log (l : List HostInput) : (s.setInputs l).log = s.log := rfl
@[simp] theorem State.setInputs_busy (l : List HostInput) : (s.setInputs l).busy = s.busy := rfl
@[simp] theorem State.setInputs_pending (l : List HostInput) : (s.setInputs l).pending = s.pending := rfl
@[simp] theorem State.setInputs_inputs (l : List HostInput) : (s.setInputs l).inputs = l := rfl
@[simp] theorem State.setInputs_config (l : List HostInput) : (s.setInputs l).config = s.config := rfl

@[simp] theorem applyReset_state : (applyReset s).state = .empty := rfl
@[simp] theorem applyReset_sel : (applyReset s).sel = 0x00 := rfl
@[simp] theorem applyReset_faultCause : (applyReset s).faultCause = .noCause := rfl
@[simp] theorem applyReset_faultCmd : (applyReset s).faultCmd = 0x00000000 := rfl
@[simp] theorem applyReset_antilog : (applyReset s).antilog = s.antilog := rfl
@[simp] theorem applyReset_log : (applyReset s).log = s.log := rfl
@[simp] theorem applyReset_busy : (applyReset s).busy = false := rfl
@[simp] theorem applyReset_pending : (applyReset s).pending = none := rfl
@[simp] theorem applyReset_inputs : (applyReset s).inputs = s.inputs := rfl
@[simp] theorem applyReset_config : (applyReset s).config = s.config := rfl

@[simp] theorem respond_state (st : Status) (d : Word) : (respond st d s).state = s.state := rfl
@[simp] theorem respond_sel (st : Status) (d : Word) : (respond st d s).sel = s.sel := rfl
@[simp] theorem respond_faultCause (st : Status) (d : Word) : (respond st d s).faultCause = s.faultCause := rfl
@[simp] theorem respond_faultCmd (st : Status) (d : Word) : (respond st d s).faultCmd = s.faultCmd := rfl
@[simp] theorem respond_antilog (st : Status) (d : Word) : (respond st d s).antilog = s.antilog := rfl
@[simp] theorem respond_log (st : Status) (d : Word) : (respond st d s).log = s.log := rfl
@[simp] theorem respond_busy (st : Status) (d : Word) : (respond st d s).busy = s.busy := rfl
@[simp] theorem respond_pending (st : Status) (d : Word) : (respond st d s).pending = some ⟨st, d⟩ := rfl
@[simp] theorem respond_inputs (st : Status) (d : Word) : (respond st d s).inputs = s.inputs := rfl
@[simp] theorem respond_config (st : Status) (d : Word) : (respond st d s).config = s.config := rfl

@[simp] theorem refuseInFault_state : (refuseInFault s).state = s.state := rfl
@[simp] theorem refuseInFault_sel : (refuseInFault s).sel = s.sel := rfl
@[simp] theorem refuseInFault_faultCause : (refuseInFault s).faultCause = s.faultCause := rfl
@[simp] theorem refuseInFault_faultCmd : (refuseInFault s).faultCmd = s.faultCmd := rfl
@[simp] theorem refuseInFault_antilog : (refuseInFault s).antilog = s.antilog := rfl
@[simp] theorem refuseInFault_log : (refuseInFault s).log = s.log := rfl
@[simp] theorem refuseInFault_busy : (refuseInFault s).busy = s.busy := rfl
@[simp] theorem refuseInFault_pending : (refuseInFault s).pending = some ⟨.fatal, zext32 s.faultCause.code⟩ := rfl
@[simp] theorem refuseInFault_inputs : (refuseInFault s).inputs = s.inputs := rfl
@[simp] theorem refuseInFault_config : (refuseInFault s).config = s.config := rfl

@[simp] theorem buildField_state (k : Byte) (e : CatEntry) : (buildField k e s).state = .ready := by
  simp [buildField]
@[simp] theorem buildField_sel (k : Byte) (e : CatEntry) : (buildField k e s).sel = k := by
  simp [buildField]
@[simp] theorem buildField_faultCause (k : Byte) (e : CatEntry) : (buildField k e s).faultCause = s.faultCause := by
  simp [buildField]
@[simp] theorem buildField_faultCmd (k : Byte) (e : CatEntry) : (buildField k e s).faultCmd = s.faultCmd := by
  simp [buildField]
@[simp] theorem buildField_antilog (k : Byte) (e : CatEntry) : (buildField k e s).antilog = builtAntilog e s := by
  simp [buildField]
@[simp] theorem buildField_log (k : Byte) (e : CatEntry) : (buildField k e s).log = builtLog e s := by
  simp [buildField]
@[simp] theorem buildField_busy (k : Byte) (e : CatEntry) : (buildField k e s).busy = false := by
  simp [buildField]
@[simp] theorem buildField_pending (k : Byte) (e : CatEntry) : (buildField k e s).pending = s.pending := by
  simp [buildField]
@[simp] theorem buildField_inputs (k : Byte) (e : CatEntry) : (buildField k e s).inputs = s.inputs := by
  simp [buildField]
@[simp] theorem buildField_config (k : Byte) (e : CatEntry) : (buildField k e s).config = s.config := by
  simp [buildField]

end Sys2Proof.Machine
end

