-- ==== Sys2Proof/Laws/Ops.lean ====
section
/-! SUPPORT. Once for each shared operation: everything it can do. -/
namespace Sys2Proof.Machine

/-- `raise Fatal` outside FAULT: the three writes and the response. -/
theorem raiseFatal_of_not_fault {s : State} (h : s.state ≠ .fault) (c : FaultCause) (w : Word) :
    raiseFatal c w s =
      { s with faultCause := c, faultCmd := w, state := .fault, pending := some ⟨.fatal, zext32 c.code⟩ } := by
  simp [raiseFatal, enterFault, h, respond, causeData, State.setFault, State.setPending]

/-- `raise Fatal` in FAULT: a refusal. -/
theorem raiseFatal_of_fault {s : State} (h : s.state = .fault) (c : FaultCause) (w : Word) :
    raiseFatal c w s = refuseInFault s := by
  simp [raiseFatal, enterFault, h, refuseInFault]

/-- A field operation in READY. -/
theorem fieldOp_ready {s : State} (h : s.state = .ready) (w : Word) (r : State) : fieldOp w s r = .next r := by
  simp [fieldOp, h]

/-- A field operation in EMPTY. -/
theorem fieldOp_empty {s : State} (h : s.state = .empty) (w : Word) (r : State) :
    fieldOp w s r = .next (raiseFatal .notReady w s) := by
  simp [fieldOp, h]

/-- A field operation in FAULT. -/
theorem fieldOp_fault {s : State} (h : s.state = .fault) (w : Word) (r : State) :
    fieldOp w s r = .next (refuseInFault s) := by
  simp [fieldOp, h]

/-- Everything a field operation can do. -/
theorem fieldOp_cases {w : Word} {s r t : State} (h : fieldOp w s r = .next t) :
    (s.state = .ready ∧ t = r) ∨ (s.state = .empty ∧ t = raiseFatal .notReady w s) ∨
      (s.state = .fault ∧ t = refuseInFault s) := by
  cases hs : s.state with
  | ready => rw [fieldOp_ready hs] at h; cases h; simp
  | empty => rw [fieldOp_empty hs] at h; cases h; simp
  | fault => rw [fieldOp_fault hs] at h; cases h; simp

/-- A catalog operation in FAULT. -/
theorem catalogOp_fault {s : State} (h : s.state = .fault) (w : Word) (k : Byte) (r : CatEntry → State) :
    catalogOp w k s r = .next (refuseInFault s) := by
  simp [catalogOp, h]

/-- A catalog operation on a valid index. -/
theorem catalogOp_valid {s : State} (h : s.state ≠ .fault) {k : Byte} {e : CatEntry}
    (he : catalogEntry s.config k = some e) (w : Word) (r : CatEntry → State) :
    catalogOp w k s r = .next (r e) := by
  cases hs : s.state <;> simp_all [catalogOp]

/-- A catalog operation on an invalid index. -/
theorem catalogOp_invalid {s : State} (h : s.state ≠ .fault) {k : Byte}
    (he : catalogEntry s.config k = none) (w : Word) (r : CatEntry → State) :
    catalogOp w k s r = .next (raiseFatal .invalidIndex w s) := by
  cases hs : s.state <;> simp_all [catalogOp]

/-- Everything a catalog operation can do. -/
theorem catalogOp_cases {w : Word} {k : Byte} {s t : State} {r : CatEntry → State} (h : catalogOp w k s r = .next t) :
    (∃ e, s.state ≠ .fault ∧ catalogEntry s.config k = some e ∧ t = r e) ∨
      (s.state ≠ .fault ∧ catalogEntry s.config k = none ∧ t = raiseFatal .invalidIndex w s) ∨
      (s.state = .fault ∧ t = refuseInFault s) := by
  by_cases hs : s.state = .fault
  · rw [catalogOp_fault hs] at h; cases h; exact .inr (.inr ⟨hs, rfl⟩)
  · cases he : catalogEntry s.config k with
    | some e => rw [catalogOp_valid hs he] at h; cases h; exact .inl ⟨e, hs, rfl, rfl⟩
    | none => rw [catalogOp_invalid hs he] at h; cases h; exact .inr (.inl ⟨hs, rfl, rfl⟩)

/-- An index is valid exactly below `N_CATALOG`, and then selects that entry. -/
theorem catalogEntry_eq_some {c : Config} {k : Byte} {e : CatEntry} :
    catalogEntry c k = some e ↔ ∃ h : k.toNat < nCatalog, c.catalog[k.toNat]'h = e := by
  unfold catalogEntry; split <;> simp_all

/-- The other indices select nothing. -/
theorem catalogEntry_eq_none {c : Config} {k : Byte} : catalogEntry c k = none ↔ nCatalog ≤ k.toNat := by
  unfold catalogEntry; split <;> simp_all

end Sys2Proof.Machine
end

