-- ==== Sys2Proof/Laws/Built.lean ====
section
/-! SUPPORT. What the tables hold after BUILD (41_build.md R421, R422). -/
namespace Sys2Proof.Machine

/-- Entries 0..254 are the powers of the generator. -/
theorem builtAntilog_low (e : CatEntry) {s : State} (h : TablesCanonical s) {i : Nat} (hi : i < 255) :
    (builtAntilog e s).read i = genPow e i := by
  unfold builtAntilog
  rw [copyBack_other _ (.inl hi), walk_antilog e h.1 h.2 (by decide) hi]

/-- Entries 255..509 repeat them. -/
theorem builtAntilog_high (e : CatEntry) {s : State} (h : TablesCanonical s) {i : Nat} (hi : i < 255) :
    (builtAntilog e s).read (255 + i) = genPow e i := by
  unfold builtAntilog
  rw [copyBack_copied (walk_wf e h.1 h.2 (by decide)).1 (by omega) hi, walk_antilog e h.1 h.2 (by decide) hi]

/-- Entries 510 and 511 keep their contents. -/
theorem builtAntilog_unused (e : CatEntry) (s : State) {i : Nat} (hi : 510 ≤ i) :
    (builtAntilog e s).read i = s.antilog.read i := by
  unfold builtAntilog
  rw [copyBack_other _ (.inr (by omega)), walk_antilog_other e _ _ (by omega)]

/-- The log of a power is the last exponent the walk visits it at. -/
theorem walk_log_last (e : CatEntry) {al lg : Memory} (ha : Memory.wf antilogSize al) (hl : Memory.wf logSize lg)
    {n i : Nat} (hn : n ≤ antilogSize) (hi : i < n) (hlast : ∀ j, i < j → j < n → genPow e j ≠ genPow e i) :
    (walk e al lg n).log.read (genPow e i).toNat = BitVec.ofNat 8 i := by
  induction n with
  | zero => omega
  | succ n ih =>
    rw [(walk_succ e al lg n).2]
    by_cases h : i = n
    · subst h
      exact Memory.read_write_same (walk_wf e ha hl (by omega : i ≤ antilogSize)).2 _ _
    · rw [Memory.read_write_other fun hc => hlast n (by omega) (by omega) (BitVec.eq_of_toNat_eq hc.symm)]
      exact ih (by omega) (by omega) fun j h1 h2 => hlast j h1 (by omega)

/-- A generator that reaches all 255 nonzero elements in 255 powers reaches each once. -/
theorem genPow_injective {e : CatEntry} (h : PrimitiveGen e) {i j : Nat} (hi : i < 255) (hj : j < 255)
    (hij : genPow e i = genPow e j) : i = j := by
  let f : Fin 255 → Byte := fun i => genPow e i.val
  have hsub : Finset.univ.erase (0 : Byte) ⊆ Finset.univ.image f := by
    intro x hx
    obtain ⟨i, hi, hp⟩ := h x (Finset.ne_of_mem_erase hx)
    exact Finset.mem_image.2 ⟨⟨i, hi⟩, Finset.mem_univ _, hp⟩
  have hbyte : Fintype.card Byte = 256 := by
    rw [Fintype.card_congr (⟨BitVec.toFin, BitVec.ofFin, fun _ => rfl, fun _ => rfl⟩ : Byte ≃ Fin (2 ^ 8)),
      Fintype.card_fin]
    norm_num
  have hcard : (Finset.univ.image f).card = (Finset.univ : Finset (Fin 255)).card := by
    refine le_antisymm Finset.card_image_le ?_
    have := Finset.card_le_card hsub
    rw [Finset.card_erase_of_mem (Finset.mem_univ _), Finset.card_univ, hbyte] at this
    rw [Finset.card_univ, Fintype.card_fin]
    exact this
  have := Finset.card_image_iff.1 hcard (Finset.mem_coe.2 (Finset.mem_univ ⟨i, hi⟩))
    (Finset.mem_coe.2 (Finset.mem_univ ⟨j, hj⟩)) hij
  exact congrArg Fin.val this

/-- Under a primitive generator the log of each power is its exponent. -/
theorem builtLog_power {e : CatEntry} (hw : PrimitiveGen e) {s : State} (h : TablesCanonical s) {i : Nat} (hi : i < 255) :
    (builtLog e s).read (genPow e i).toNat = BitVec.ofNat 8 i := by
  unfold builtLog
  refine walk_log_last e h.1 h.2 (by decide) hi fun j h1 h2 h3 => ?_
  have := genPow_injective hw h2 hi h3
  omega

/-- BUILD keeps the antilog table's canonical form. -/
theorem builtAntilog_wf (e : CatEntry) {s : State} (h : TablesCanonical s) :
    Memory.wf antilogSize (builtAntilog e s) := by
  unfold builtAntilog
  exact copyBack_wf (walk_wf e h.1 h.2 (by decide)).1 (by omega)

/-- BUILD keeps the log table's canonical form. -/
theorem builtLog_wf (e : CatEntry) {s : State} (h : TablesCanonical s) : Memory.wf logSize (builtLog e s) := by
  unfold builtLog
  exact (walk_wf e h.1 h.2 (by decide)).2

/-- BUILD keeps both canonical forms. -/
theorem buildField_canonical (k : Byte) (e : CatEntry) {s : State} (h : TablesCanonical s) :
    TablesCanonical (buildField k e s) := by
  unfold TablesCanonical
  rw [buildField_antilog, buildField_log]
  exact ⟨builtAntilog_wf e h, builtLog_wf e h⟩

/-- A BUILD cut short keeps both canonical forms. -/
theorem partialBuild_canonical (e : CatEntry) (progress : Nat) {s : State} (h : TablesCanonical s) :
    TablesCanonical (partialBuild e progress s) := by
  have hn : min progress 255 ≤ antilogSize := le_trans (Nat.min_le_right _ _) (by decide)
  unfold TablesCanonical partialBuild
  rw [State.setTables_antilog, State.setTables_log]
  exact ⟨copyBack_wf (walk_wf e h.1 h.2 hn).1 (by omega), (walk_wf e h.1 h.2 hn).2⟩

/-- Only the tables matter to their canonical form. -/
theorem TablesCanonical.of_tables_eq {s t : State} (h : TablesCanonical s) (ha : t.antilog = s.antilog)
    (hl : t.log = s.log) : TablesCanonical t := by
  unfold TablesCanonical
  rw [ha, hl]
  exact h

/-- Only the state, the selector, the catalog and the tables matter to what the tables hold. -/
theorem TablesBuilt.of_eq {s t : State} (h : TablesBuilt s) (hs : t.state = s.state) (hk : t.sel = s.sel)
    (hc : t.config = s.config) (ha : t.antilog = s.antilog) (hl : t.log = s.log) : TablesBuilt t := by
  constructor
  · rw [hs, hc, hk, ha]; exact h.antilogLow
  · rw [hs, hc, hk, ha]; exact h.antilogHigh
  · rw [hs, hc, hk, hl]; exact h.log

/-- Outside READY nothing is asked of the tables. -/
theorem TablesBuilt.of_not_ready {s : State} (h : s.state ≠ .ready) : TablesBuilt s :=
  ⟨fun hr => absurd hr h, fun hr => absurd hr h, fun hr => absurd hr h⟩

/-- The tables after a BUILD of entry `k` are those of entry `k`. -/
theorem buildField_built {k : Byte} {e : CatEntry} {s : State} (h : TablesCanonical s)
    (he : catalogEntry s.config k = some e) : TablesBuilt (buildField k e s) := by
  constructor
  all_goals
    intro _ e' he'
    rw [buildField_config, buildField_sel, he] at he'
    cases he'
  · intro i hi; rw [buildField_antilog]; exact builtAntilog_low e h hi
  · intro i hi; rw [buildField_antilog]; exact builtAntilog_high e h hi
  · intro hw i hi; rw [buildField_log]; exact builtLog_power hw.primitive h hi

end Sys2Proof.Machine
end

