-- ==== Sys2Proof/Laws/Clmul.lean ====
section
/-! SUPPORT. The multiplier's loop, one iteration at a time. -/
namespace Sys2Proof.Machine

/-- The multiplicand after `k + 1` iterations. -/
theorem clmulLoop_x (a b m : Byte) (k : Nat) : (clmulLoop a b m (k + 1)).2 = timesX (clmulLoop a b m k).2 m := rfl

/-- The accumulator after `k + 1` iterations. -/
theorem clmulLoop_acc (a b m : Byte) (k : Nat) :
    (clmulLoop a b m (k + 1)).1 =
      if b.getLsbD k then (clmulLoop a b m k).1 ^^^ (clmulLoop a b m k).2 else (clmulLoop a b m k).1 := rfl

/-- A shift is linear: shifting a sum is summing the shifts. -/
theorem timesX_xor (x y m : Byte) : timesX (x ^^^ y) m = timesX x m ^^^ timesX y m := by
  have h : (x ^^^ y) <<< 1 = (x <<< 1) ^^^ (y <<< 1) := BitVec.shiftLeft_xor_distrib x y 1
  unfold timesX
  simp only [BitVec.getLsbD_xor]
  cases x.getLsbD 7 <;> cases y.getLsbD 7 <;> simp [h] <;> (ext i; simp; try grind)

/-- The multiplicand does not depend on the multiplier. -/
theorem clmulLoop_x_of (a b b' m : Byte) (k : Nat) : (clmulLoop a b m k).2 = (clmulLoop a b' m k).2 := by
  induction k with
  | zero => rfl
  | succ k ih => rw [clmulLoop_x, clmulLoop_x, ih]

end Sys2Proof.Machine
end

