-- ==== Sys2Proof/Laws/Decode.lean ====
section
/-! SUPPORT. The fields of a laid-out word. -/
namespace Sys2Proof

/-- `OP` of `{C, B, A, 0, OP}`. -/
@[simp] theorem fieldOP_layout (c b a : Byte) (op : BitVec 4) : fieldOP (layout c b a op) = op := by
  unfold fieldOP layout; apply BitVec.eq_of_getLsbD_eq; intro i hi
  simp only [BitVec.getLsbD_extractLsb', BitVec.getLsbD_append]; grind

/-- `A` of `{C, B, A, 0, OP}`. -/
@[simp] theorem fieldA_layout (c b a : Byte) (op : BitVec 4) : fieldA (layout c b a op) = a := by
  unfold fieldA layout; apply BitVec.eq_of_getLsbD_eq; intro i hi
  simp only [BitVec.getLsbD_extractLsb', BitVec.getLsbD_append]; grind

/-- `B` of `{C, B, A, 0, OP}`. -/
@[simp] theorem fieldB_layout (c b a : Byte) (op : BitVec 4) : fieldB (layout c b a op) = b := by
  unfold fieldB layout; apply BitVec.eq_of_getLsbD_eq; intro i hi
  simp only [BitVec.getLsbD_extractLsb', BitVec.getLsbD_append]; grind

/-- `C` of `{C, B, A, 0, OP}`. -/
@[simp] theorem fieldC_layout (c b a : Byte) (op : BitVec 4) : fieldC (layout c b a op) = c := by
  unfold fieldC layout; apply BitVec.eq_of_getLsbD_eq; intro i hi
  simp only [BitVec.getLsbD_extractLsb', BitVec.getLsbD_append]; grind

/-- Format P is format T with `N = {C, B}`. -/
theorem wordP_eq_layout (a : Byte) (n : Half) (op : BitVec 4) :
    wordP a n op = layout (n.extractLsb' 8 8) (n.extractLsb' 0 8) a op := by
  unfold wordP layout; apply BitVec.eq_of_getLsbD_eq; intro i hi
  simp only [BitVec.getLsbD_extractLsb', BitVec.getLsbD_append]; grind

/-- A word is the concatenation of its fields. -/
theorem word_eq_fields (w : Word) : fieldC w ++ fieldB w ++ fieldA w ++ fieldRSV w ++ fieldOP w = w := by
  unfold fieldC fieldB fieldA fieldRSV fieldOP; apply BitVec.eq_of_getLsbD_eq; intro i hi
  simp only [BitVec.getLsbD_extractLsb', BitVec.getLsbD_append]; grind

/-- What decoding to a command means: the opcode's row, with the checked bits right. -/
theorem decodeWord_eq_ok {w : Word} {i : Instr} :
    decodeWord w = .ok i ↔
      ∃ f command, opcodeRow (fieldOP w) = some (f, command) ∧ w &&& f.mask = (fieldOP w).setWidth 32 ∧ command w = i := by
  unfold decodeWord
  cases h : opcodeRow (fieldOP w) with
  | none => simp
  | some p =>
    obtain ⟨f, command⟩ := p
    by_cases hm : w &&& f.mask = (fieldOP w).setWidth 32 <;> simp [hm]

/-- What decoding to an illegal opcode means. -/
theorem decodeWord_eq_illegal {w : Word} : decodeWord w = .error .illegalOpcode ↔ opcodeRow (fieldOP w) = none := by
  unfold decodeWord
  cases h : opcodeRow (fieldOP w) with
  | none => simp
  | some p =>
    obtain ⟨f, command⟩ := p
    by_cases hm : w &&& f.mask = (fieldOP w).setWidth 32 <;> simp [hm]

/-- What decoding to reserved bits means. -/
theorem decodeWord_eq_reserved {w : Word} :
    decodeWord w = .error .reservedBits ↔
      ∃ f command, opcodeRow (fieldOP w) = some (f, command) ∧ w &&& f.mask ≠ (fieldOP w).setWidth 32 := by
  unfold decodeWord
  cases h : opcodeRow (fieldOP w) with
  | none => simp
  | some p =>
    obtain ⟨f, command⟩ := p
    by_cases hm : w &&& f.mask = (fieldOP w).setWidth 32 <;> simp [hm]

/-- Every opcode but `0x0` has a row. -/
theorem opcodeRow_eq_none : ∀ op : BitVec 4, opcodeRow op = none ↔ op = 0x0 := by
  intro op
  constructor
  · intro h
    by_contra h0
    have : ∀ op : BitVec 4, op ≠ 0x0 → (opcodeRow op).isSome = true := by decide
    have := this op h0
    rw [h] at this
    cases this
  · rintro rfl; rfl

/-- A field of a word is 0 where a mask covers it and the masked value is 0. -/
theorem extract_eq_zero {w m v : Word} (h : w &&& m = v) (k n : Nat) (hm : ∀ i < n, m.getLsbD (k + i) = true)
    (hv : ∀ i < n, v.getLsbD (k + i) = false) : w.extractLsb' k n = 0#n := by
  apply BitVec.eq_of_getLsbD_eq
  intro i hi
  have hb := congrArg (fun x => x.getLsbD (k + i)) h
  simp only [BitVec.getLsbD_and, hm i hi, hv i hi, Bool.and_true] at hb
  simp [hi, hb]

/-- The checked bits of a laid-out word of format U. -/
theorem layout_mask_U (a : Byte) (op : BitVec 4) : layout 0 0 a op &&& Format.U.mask = op.setWidth 32 := by
  unfold layout Format.mask; apply BitVec.eq_of_getLsbD_eq; intro i hi
  simp only [BitVec.getLsbD_and, BitVec.getLsbD_append, BitVec.getLsbD_setWidth]
  interval_cases i <;> simp

/-- The checked bits of a laid-out word of format R. -/
theorem layout_mask_R (b a : Byte) (op : BitVec 4) : layout 0 b a op &&& Format.R.mask = op.setWidth 32 := by
  unfold layout Format.mask; apply BitVec.eq_of_getLsbD_eq; intro i hi
  simp only [BitVec.getLsbD_and, BitVec.getLsbD_append, BitVec.getLsbD_setWidth]
  interval_cases i <;> simp

/-- The checked bits of a laid-out word of format T or P. -/
theorem layout_mask_T (c b a : Byte) (op : BitVec 4) : layout c b a op &&& Format.T.mask = op.setWidth 32 := by
  unfold layout Format.mask; apply BitVec.eq_of_getLsbD_eq; intro i hi
  simp only [BitVec.getLsbD_and, BitVec.getLsbD_append, BitVec.getLsbD_setWidth]
  interval_cases i <;> simp

/-- `N` of a word of format P. -/
theorem fieldN_wordP (a : Byte) (n : Half) (op : BitVec 4) : fieldN (wordP a n op) = n := by
  unfold fieldN wordP; apply BitVec.eq_of_getLsbD_eq; intro i hi
  simp only [BitVec.getLsbD_extractLsb', BitVec.getLsbD_append]; grind

/-- `N` is `{C, B}`. -/
theorem fieldN_eq (w : Word) : fieldN w = fieldC w ++ fieldB w := by
  unfold fieldN fieldC fieldB; apply BitVec.eq_of_getLsbD_eq; intro i hi
  simp only [BitVec.getLsbD_extractLsb', BitVec.getLsbD_append]; grind

/-- The bytes of a word give it back. -/
theorem bytes_append (w : Word) : byteOf w 3 ++ byteOf w 2 ++ byteOf w 1 ++ byteOf w 0 = w := by
  unfold byteOf; apply BitVec.eq_of_getLsbD_eq; intro i hi
  simp only [BitVec.getLsbD_extractLsb', BitVec.getLsbD_append]; grind

end Sys2Proof
end

