-- ==== Sys2Proof/Laws/Step.lean ====
section
/-! SUPPORT. Everything a step can do. -/
namespace Sys2Proof.Machine

/-- Everything a step can do: nothing is on the ports; reset; a reset during the command; a command runs; or nothing is accepted
and at most the pending response transfers. -/
theorem step_cases {s t : State} (h : step s = .next t) :
    (s.inputs = [] ∧ t = s) ∨
    ∃ x rest, s.inputs = x :: rest ∧
      ((x.rst = .asserted ∧ t = applyReset (s.setInputs rest)) ∨
       (∃ n, x.rst = .duringCommand n ∧ t = applyReset (cutShort n x (s.setInputs rest))) ∨
       (∃ w, x.rst = .released ∧ x.cmd = some w ∧ cmdReady x (s.setInputs rest) = true ∧
          runWord w (s.setInputs rest) = .next t) ∨
       (x.rst = .released ∧ (x.cmd = none ∨ cmdReady x (s.setInputs rest) = false) ∧
          t = transferResponse x (s.setInputs rest))) := by
  unfold step at h
  cases hi : s.inputs with
  | nil => simp only [hi] at h; cases h; exact .inl ⟨rfl, rfl⟩
  | cons x rest =>
    refine .inr ⟨x, rest, rfl, ?_⟩
    simp only [hi] at h
    unfold stepInput at h
    cases hr : x.rst with
    | asserted => simp only [hr] at h; cases h; exact .inl ⟨rfl, rfl⟩
    | duringCommand n => simp only [hr] at h; cases h; exact .inr (.inl ⟨n, rfl, rfl⟩)
    | released =>
      simp only [hr] at h
      cases hc : x.cmd with
      | none => simp only [hc] at h; cases h; exact .inr (.inr (.inr ⟨rfl, .inl rfl, rfl⟩))
      | some w =>
        simp only [hc] at h
        split at h
        next hready => exact .inr (.inr (.inl ⟨w, rfl, rfl, hready, h⟩))
        next hready => cases h; exact .inr (.inr (.inr ⟨rfl, .inr (by simpa using hready), rfl⟩))

end Sys2Proof.Machine
end

