-- ==== Sys2Proof/Laws/Exec.lean ====
section
/-! SUPPORT. Everything a command can do. -/
namespace Sys2Proof.Machine

/-- The next states a command can have. -/
inductive ExecOutcome (i : Instr) (s : State) : State → Prop
  /-- it is refused in FAULT -/
  | refused (hs : s.state = .fault) (hi : i ≠ .qstat ∧ i ≠ .qfcmd) : ExecOutcome i s (refuseInFault s)
  /-- it needs READY and the engine is in EMPTY -/
  | notReady (hs : s.state = .empty) (hi : needsReady i = true) : ExecOutcome i s (raiseFatal .notReady (encode i) s)
  /-- its catalog index is invalid -/
  | invalidIndex (k : Byte) (hs : s.state ≠ .fault) (hi : indexOperand i = some k)
      (hk : catalogEntry s.config k = none) : ExecOutcome i s (raiseFatal .invalidIndex (encode i) s)
  /-- it is a BUILD that succeeds -/
  | built (k : Byte) (e : CatEntry) (hi : i = .build k) (hs : s.state ≠ .fault)
      (he : catalogEntry s.config k = some e) : ExecOutcome i s (respond .ok 0x00000000 (buildField k e s))
  /-- it has its recoverable failure -/
  | failed (st : Status) (hs : s.state = .ready) (hi : recoverableFailure i = some st) (hn : needsReady i = true) :
      ExecOutcome i s (failWith st s)
  /-- it answers OK and changes nothing else -/
  | answered (d : Word) (hb : ∀ k, i ≠ .build k) (hr : recoverableFailure i = none)
      (hn : needsReady i = true → s.state = .ready)
      (hk : ∀ k, indexOperand i = some k → ∃ e, catalogEntry s.config k = some e)
      (hf : s.state = .fault → i = .qstat ∨ i = .qfcmd) :
      ExecOutcome i s (respond .ok d s)

/-- A field operation without a recoverable failure. -/
theorem ExecOutcome.of_fieldOp {i : Instr} {s t : State} {d : Word} (hn : needsReady i = true)
    (hx : indexOperand i = none) (hb : ∀ k, i ≠ .build k) (hr : recoverableFailure i = none)
    (h : fieldOp (encode i) s (respond .ok d s) = .next t) : ExecOutcome i s t := by
  rcases fieldOp_cases h with ⟨hs, rfl⟩ | ⟨hs, rfl⟩ | ⟨hs, rfl⟩
  · exact .answered d hb hr (fun _ => hs) (by simp [hx]) (by simp [hs])
  · exact .notReady hs hn
  · exact .refused hs (by constructor <;> (rintro rfl; cases hn))

/-- A field operation with a recoverable failure under the condition `p`. -/
theorem ExecOutcome.of_failing {i : Instr} {s t : State} {d : Word} {st : Status} {p : Prop} [Decidable p]
    (hn : needsReady i = true) (hx : indexOperand i = none) (hb : ∀ k, i ≠ .build k)
    (hr : recoverableFailure i = if p then some st else none)
    (h : fieldOp (encode i) s (if p then failWith st s else respond .ok d s) = .next t) : ExecOutcome i s t := by
  by_cases hp : p
  · rcases fieldOp_cases h with ⟨hs, rfl⟩ | ⟨hs, rfl⟩ | ⟨hs, rfl⟩
    · rw [if_pos hp]; exact .failed st hs (by rw [hr, if_pos hp]) hn
    · exact .notReady hs hn
    · exact .refused hs (by constructor <;> (rintro rfl; cases hn))
  · rw [if_neg hp] at h hr
    exact .of_fieldOp hn hx hb hr h

/-- A catalog operation other than BUILD. -/
theorem ExecOutcome.of_catalogOp {i : Instr} {s t : State} {k : Byte} {d : CatEntry → Word} (hn : needsReady i = false)
    (hx : indexOperand i = some k) (hb : ∀ k, i ≠ .build k) (hr : recoverableFailure i = none)
    (h : catalogOp (encode i) k s (fun e => respond .ok (d e) s) = .next t) : ExecOutcome i s t := by
  rcases catalogOp_cases h with ⟨e, hs, he, rfl⟩ | ⟨hs, he, rfl⟩ | ⟨hs, rfl⟩
  · refine .answered (d e) hb hr (by simp [hn]) (fun k' hk' => ?_) (fun h => absurd h hs)
    rw [hx] at hk'; cases hk'; exact ⟨e, he⟩
  · exact .invalidIndex k hs hx he
  · exact .refused hs (by constructor <;> (rintro rfl; cases hx))

/-- Everything a command can do. -/
theorem exec_cases {i : Instr} {s t : State} (h : exec i s = .next t) : ExecOutcome i s t := by
  cases i with
  | build k =>
    rcases catalogOp_cases h with ⟨e, hs, he, rfl⟩ | ⟨hs, he, rfl⟩ | ⟨hs, rfl⟩
    · exact .built k e rfl hs he
    · exact .invalidIndex k hs rfl he
    · exact .refused hs (by simp)
  | add a b => exact .of_fieldOp rfl rfl (by simp) rfl h
  | sub a b => exact .of_fieldOp rfl rfl (by simp) rfl h
  | mul a b => exact .of_fieldOp rfl rfl (by simp) rfl h
  | div a b => exact .of_failing rfl rfl (by simp) rfl h
  | inv a => exact .of_failing rfl rfl (by simp) rfl h
  | pow a n => exact .of_fieldOp rfl rfl (by simp) rfl h
  | log a => exact .of_failing rfl rfl (by simp) rfl h
  | exp k => exact .of_fieldOp rfl rfl (by simp) rfl h
  | clmul a b k => exact .of_catalogOp rfl rfl (by simp) rfl h
  | qsel => exact .of_fieldOp rfl rfl (by simp) rfl h
  | catval k => exact .of_catalogOp rfl rfl (by simp) rfl h
  | catgen k => exact .of_catalogOp rfl rfl (by simp) rfl h
  | qstat =>
    cases h
    exact .answered _ (by simp) rfl (by simp [needsReady]) (by simp [indexOperand]) (by simp)
  | qfcmd =>
    cases h
    exact .answered _ (by simp) rfl (by simp [needsReady]) (by simp [indexOperand]) (by simp)

end Sys2Proof.Machine
end

