-- ==== Sys2Proof/Laws/PerInstr.lean ====
section
/-! SUPPORT. One lemma for each command: its word matches its own row of the opcode table. -/
namespace Sys2Proof.Laws.OpcodeRow

/-- The opcode a command's row has in 30_encoding.md R305. -/
def opcode : Instr → BitVec 4
  | .build _ => 0x1
  | .add _ _ => 0x2
  | .sub _ _ => 0x3
  | .mul _ _ => 0x4
  | .div _ _ => 0x5
  | .inv _ => 0x6
  | .pow _ _ => 0x7
  | .log _ => 0x8
  | .exp _ => 0x9
  | .clmul _ _ _ => 0xA
  | .qsel => 0xB
  | .catval _ => 0xC
  | .catgen _ => 0xD
  | .qstat => 0xE
  | .qfcmd => 0xF

/-- The word's `OP` field is the row's opcode and its `RSV` field is 0. -/
def Statement (i : Instr) : Prop := fieldOP (encode i) = opcode i ∧ fieldRSV (encode i) = 0

/-- `RSV` of a laid-out word. -/
theorem fieldRSV_layout (c b a : Byte) (op : BitVec 4) : fieldRSV (layout c b a op) = 0 := by
  unfold fieldRSV layout; apply BitVec.eq_of_getLsbD_eq; intro i hi
  simp only [BitVec.getLsbD_extractLsb', BitVec.getLsbD_append]; grind

/-- The opcode and `RSV` of a laid-out word. -/
theorem of_layout (c b a : Byte) (op : BitVec 4) :
    fieldOP (layout c b a op) = op ∧ fieldRSV (layout c b a op) = 0 :=
  ⟨fieldOP_layout c b a op, fieldRSV_layout c b a op⟩

theorem build (k : Byte) : Statement (.build k) := of_layout _ _ _ _
theorem add (a b : Byte) : Statement (.add a b) := of_layout _ _ _ _
theorem sub (a b : Byte) : Statement (.sub a b) := of_layout _ _ _ _
theorem mul (a b : Byte) : Statement (.mul a b) := of_layout _ _ _ _
theorem div (a b : Byte) : Statement (.div a b) := of_layout _ _ _ _
theorem inv (a : Byte) : Statement (.inv a) := of_layout _ _ _ _
theorem pow (a : Byte) (n : Half) : Statement (.pow a n) := by
  simp only [Statement, encode, wordP_eq_layout]; exact of_layout _ _ _ _
theorem log (a : Byte) : Statement (.log a) := of_layout _ _ _ _
theorem exp (i : Byte) : Statement (.exp i) := of_layout _ _ _ _
theorem clmul (a b k : Byte) : Statement (.clmul a b k) := of_layout _ _ _ _
theorem qsel : Statement .qsel := of_layout _ _ _ _
theorem catval (k : Byte) : Statement (.catval k) := of_layout _ _ _ _
theorem catgen (k : Byte) : Statement (.catgen k) := of_layout _ _ _ _
theorem qstat : Statement .qstat := of_layout _ _ _ _
theorem qfcmd : Statement .qfcmd := of_layout _ _ _ _

end Sys2Proof.Laws.OpcodeRow
end

