-- ==== Sys2Proof/Laws/WellFormed.lean ====
section
/-! SUPPORT. Deciding 00_scope.md R8: primitivity by marking the powers of the generator in one number, and `REF_CATALOG` meets
R8. -/
namespace Sys2Proof.Machine

/-- A catalog that meets 00_scope.md R8 gives only entries that do. -/
theorem catalogEntry_wf {c : Config} (hc : c.WF) {k : Byte} {e : CatEntry} (he : catalogEntry c k = some e) : e.WF := by
  obtain ⟨h, rfl⟩ := catalogEntry_eq_some.1 he
  exact hc _ h

/-- The first `n` powers of the generator as the set bits of a number, and the next power. -/
def marks (e : CatEntry) : Nat → Nat × Byte
  | 0 => (0, 0x01)
  | n + 1 =>
    let p := marks e n
    (p.1 ||| (1 <<< p.2.toNat), clmul8 p.2 e.gen e.low)

/-- The next power. -/
theorem marks_snd (e : CatEntry) (n : Nat) : (marks e n).2 = genPow e n := by
  induction n with
  | zero => rfl
  | succ n ih => simp [marks, genPow, ih]

/-- A bit is marked exactly when it is a power. -/
theorem testBit_marks (e : CatEntry) (n x : Nat) : (marks e n).1.testBit x = true ↔ ∃ i < n, (genPow e i).toNat = x := by
  induction n with
  | zero => simp [marks]
  | succ n ih =>
    have hbit : (1 <<< (genPow e n).toNat).testBit x = decide ((genPow e n).toNat = x) := by
      rw [Nat.one_shiftLeft, Nat.testBit_two_pow]
    simp only [marks, marks_snd, Nat.testBit_or, Bool.or_eq_true, ih, hbit, decide_eq_true_eq]
    constructor
    · rintro (⟨i, hi, h⟩ | h)
      · exact ⟨i, by omega, h⟩
      · exact ⟨n, by omega, h⟩
    · rintro ⟨i, hi, h⟩
      by_cases hn : i = n
      · exact .inr (hn ▸ h)
      · exact .inl ⟨i, by omega, h⟩

/-- The generator is primitive exactly when every nonzero element is marked. -/
theorem primitiveGen_iff (e : CatEntry) :
    PrimitiveGen e ↔ ∀ x : Nat, x < 256 → x ≠ 0 → (marks e 255).1.testBit x = true := by
  constructor
  · intro h x hx h0
    obtain ⟨i, hi, hp⟩ := h (BitVec.ofNat 8 x) (by
      intro hz; apply h0
      have := congrArg BitVec.toNat hz
      simp at this; omega)
    exact (testBit_marks e 255 x).2 ⟨i, hi, by rw [hp, BitVec.toNat_ofNat]; omega⟩
  · intro h x hx
    obtain ⟨i, hi, hp⟩ := (testBit_marks e 255 x.toNat).1 (h x.toNat x.isLt (by
      intro hz; exact hx (BitVec.eq_of_toNat_eq (by simpa using hz))))
    exact ⟨i, hi, BitVec.eq_of_toNat_eq hp⟩

/-- A quick sufficient check. -/
theorem primitiveGen_of_marks {e : CatEntry} (h : (marks e 255).1 = 2 ^ 256 - 2) : PrimitiveGen e := by
  rw [primitiveGen_iff, h]
  decide +kernel

/-- 00_scope.md R8 for one entry, from checks that run. -/
theorem catEntry_wf_of_checks {e : CatEntry} (hirr : IrreducibleValue e.value) (hgen : e.gen ≠ 0)
    (hmarks : (marks e 255).1 = 2 ^ 256 - 2) : e.WF :=
  ⟨hirr.1, hirr, hgen, primitiveGen_of_marks hmarks⟩

/-- Every generator of `REF_CATALOG` marks every nonzero element. -/
theorem reference_marks :
    ∀ k : Fin nCatalog, (marks (Config.reference.catalog[k.val]'k.isLt) 255).1 = 2 ^ 256 - 2 := by
  decide +kernel

/-- Every value of `REF_CATALOG` is irreducible. -/
theorem reference_irreducible : ∀ k : Fin nCatalog, IrreducibleValue (Config.reference.catalog[k.val]'k.isLt).value := by
  unfold IrreducibleValue
  decide +kernel

/-- `REF_CATALOG` meets 00_scope.md R8. -/
theorem reference_wf : Config.WF Config.reference := fun k h =>
  catEntry_wf_of_checks (reference_irreducible ⟨k, h⟩)
    (by revert k; decide +kernel) (reference_marks ⟨k, h⟩)

end Sys2Proof.Machine
end

