-- ==== Sys2Proof/Tests/Slice0.lean ====
section
/-! SUPPORT. The model's own tests: ill-formed terms refused, words written out bit by bit, one or two steps' results for each
command (expected values from spec/95_test_vectors.md unless a comment says otherwise), and for every statement with hypotheses
a witness that meets them. -/
namespace Sys2Proof.Tests
open Sys2Proof Sys2Proof.Machine

/-! ## Well-formedness refuses each ill-formed term (00_scope.md R8) -/

theorem test_wf_refuses_value_without_bit8 : ¬ CatEntry.WF ⟨0x01b, 0x03⟩ := fun h => absurd h.monic (by decide)

/-- `x^8 + 1` is divisible by `x + 1`. -/
theorem test_wf_refuses_reducible_value : ¬ CatEntry.WF ⟨0x101, 0x03⟩ := fun h =>
  h.irreducible.2 3 (by decide) (by decide) (by decide)

theorem test_wf_refuses_zero_generator : ¬ CatEntry.WF ⟨0x11b, 0x00⟩ := fun h => h.gen_ne_zero rfl

/-- Under 0x11b the element 0x02 is not primitive (20_memory.md R213): 0x03 is none of its powers. -/
theorem test_wf_refuses_imprimitive_generator : ¬ CatEntry.WF ⟨0x11b, 0x02⟩ := fun h =>
  absurd ((primitiveGen_iff _).1 h.primitive 3 (by decide) (by decide)) (by decide +kernel)

theorem test_wf_refuses_catalog_with_one_bad_entry :
    ¬ Config.WF { Config.reference with catalog := Config.reference.catalog.set 29 ⟨0x101, 0x03⟩ } := fun h =>
  test_wf_refuses_reducible_value (h 29 (by decide))

theorem test_wf_accepts_reference : Config.WF Config.reference := reference_wf

theorem test_literal_bounds :
    fitsByte 255 = true ∧ fitsByte 256 = false ∧ fitsHalf 65535 = true ∧ fitsHalf 65536 = false ∧
      fitsWord (2 ^ 32 - 1) = true ∧ fitsWord (2 ^ 32) = false := by decide

/-- `add 256, 0` and `pow 0, 65536` do not fit; a wrong operand count and an unknown mnemonic are refused. -/
theorem test_assembler_refuses :
    assemble ⟨.add, [256, 0]⟩ = none ∧ assemble ⟨.pow, [0, 65536]⟩ = none ∧ assemble ⟨.qsel, [0]⟩ = none ∧
      parseLine "mov 1, 2".toList = none := by decide

/-- A table entry equal to what an unlisted one reads as, an index out of range and falling indices are not canonical. -/
theorem test_memory_form : ¬ Memory.wf logSize [(3, 0x00)] ∧ ¬ Memory.wf logSize [(256, 0x01)] ∧
    ¬ Memory.wf logSize [(4, 0x01), (3, 0x01)] ∧ Memory.wf logSize [(3, 0x01), (255, 0x02)] := by decide

/-! ## Decoding, from the layouts of 30_encoding.md R303: `{C, B, A, RSV, OP}` written bit by bit -/

theorem test_decode_build :
    decodeWord (0b00000000#8 ++ 0b00000000#8 ++ 0b00011101#8 ++ 0b0000#4 ++ 0b0001#4) = .ok (.build 29) := by decide
theorem test_decode_add :
    decodeWord (0b00000000#8 ++ 0b11001010#8 ++ 0b01010011#8 ++ 0b0000#4 ++ 0b0010#4) = .ok (.add 0x53 0xCA) := by decide
theorem test_decode_sub :
    decodeWord (0b00000000#8 ++ 0b10000011#8 ++ 0b01010111#8 ++ 0b0000#4 ++ 0b0011#4) = .ok (.sub 0x57 0x83) := by decide
theorem test_decode_mul :
    decodeWord (0b00000000#8 ++ 0b11001010#8 ++ 0b01010011#8 ++ 0b0000#4 ++ 0b0100#4) = .ok (.mul 0x53 0xCA) := by decide
theorem test_decode_div :
    decodeWord (0b00000000#8 ++ 0b11001010#8 ++ 0b00000001#8 ++ 0b0000#4 ++ 0b0101#4) = .ok (.div 0x01 0xCA) := by decide
theorem test_decode_inv :
    decodeWord (0b00000000#8 ++ 0b00000000#8 ++ 0b01010011#8 ++ 0b0000#4 ++ 0b0110#4) = .ok (.inv 0x53) := by decide
theorem test_decode_pow :
    decodeWord (0b0000000100000010#16 ++ 0b01010011#8 ++ 0b0000#4 ++ 0b0111#4) = .ok (.pow 0x53 258) := by decide
theorem test_decode_log :
    decodeWord (0b00000000#8 ++ 0b00000000#8 ++ 0b00000011#8 ++ 0b0000#4 ++ 0b1000#4) = .ok (.log 0x03) := by decide
theorem test_decode_exp :
    decodeWord (0b00000000#8 ++ 0b00000000#8 ++ 0b11111111#8 ++ 0b0000#4 ++ 0b1001#4) = .ok (.exp 255) := by decide
theorem test_decode_clmul :
    decodeWord (0b00000001#8 ++ 0b11001010#8 ++ 0b01010011#8 ++ 0b0000#4 ++ 0b1010#4) = .ok (.clmul 0x53 0xCA 1) := by decide
theorem test_decode_qsel :
    decodeWord (0b00000000#8 ++ 0b00000000#8 ++ 0b00000000#8 ++ 0b0000#4 ++ 0b1011#4) = .ok .qsel := by decide
theorem test_decode_catval :
    decodeWord (0b00000000#8 ++ 0b00000000#8 ++ 0b00000001#8 ++ 0b0000#4 ++ 0b1100#4) = .ok (.catval 1) := by decide
theorem test_decode_catgen :
    decodeWord (0b00000000#8 ++ 0b00000000#8 ++ 0b00011110#8 ++ 0b0000#4 ++ 0b1101#4) = .ok (.catgen 30) := by decide
theorem test_decode_qstat :
    decodeWord (0b00000000#8 ++ 0b00000000#8 ++ 0b00000000#8 ++ 0b0000#4 ++ 0b1110#4) = .ok .qstat := by decide
theorem test_decode_qfcmd :
    decodeWord (0b00000000#8 ++ 0b00000000#8 ++ 0b00000000#8 ++ 0b0000#4 ++ 0b1111#4) = .ok .qfcmd := by decide

/-- `OP = 0x0` is illegal whatever the other bits; a single zero bit of each format is reserved. -/
theorem test_decode_rejects :
    decodeWord 0xFFFFFFF0 = .error .illegalOpcode ∧ decodeWord 0x0000001E = .error .reservedBits ∧
      decodeWord 0x00010001 = .error .reservedBits ∧ decodeWord 0x01000004 = .error .reservedBits ∧
      decodeWord 0x0000008A = .error .reservedBits ∧ decodeWord 0x00000017 = .error .reservedBits := by decide

theorem test_decode_table_word : decodeTableWord 32 0x00CA5304 = some (.mul 0x53 0xCA) ∧ decodeTableWord 32 0 = none ∧
    decodeTableWord 33 0x00CA5304 = none := by decide

/-- The low byte comes first (20_memory.md R202); three bytes are no command. -/
theorem test_decode_bytes : decodeBytes [0x04, 0x53, 0xCA, 0x00] = some (.ok (.mul 0x53 0xCA)) ∧
    decodeBytes [0x04, 0x53, 0xCA] = none := by decide

/-! ## One step of each command -/

/-- A state in READY whose tables hold a few entries of the field of 0x11b with generator 0x03: `LOG[0x53] = 48`,
`LOG[0xCA] = 207`, `LOG[0x03] = 1`, `LOG[0x01] = 0`. -/
def small : State := { State.reset with
  state := .ready
  antilog := [(0, 0x01), (1, 0x03), (48, 0x53), (144, 0xC3), (207, 0xCA), (254, 0xF6), (255, 0x01)]
  log := [(0x03, 1), (0x53, 48), (0xCA, 207), (0xF6, 254)] }

/-- A state in FAULT, after `mul 1, 2` right after reset (P2). -/
def faulted : State := { State.reset with state := .fault, faultCause := .notReady, faultCmd := 0x00020104 }

/-- The response to the word `w`, offered at the next step. -/
def answer (s : State) (w : Nat) : Option Response :=
  match step (s.withFetchWord 32 w) with
  | .next t => t.pending
  | .fault _ => none
  | .refused _ => none

theorem test_add : answer small 0x00CA5302 = some ⟨.ok, 0x99⟩ ∧ answer State.reset 0x00CA5302 = some ⟨.fatal, 4⟩ := by
  decide
theorem test_sub : answer small 0x00835703 = some ⟨.ok, 0xD4⟩ := by decide
theorem test_mul : answer small 0x00CA5304 = some ⟨.ok, 1⟩ ∧ answer small 0x00005304 = some ⟨.ok, 0⟩ := by decide
theorem test_div : answer small 0x00CA0105 = some ⟨.ok, 0x53⟩ := by decide
theorem test_div_by_zero : answer small 0x00000505 = some ⟨.divByZero, 0⟩ ∧ answer small 0x00000005 = some ⟨.divByZero, 0⟩ := by
  decide
theorem test_inv : answer small 0x00005306 = some ⟨.ok, 0xCA⟩ ∧ answer small 0x00000106 = some ⟨.ok, 1⟩ ∧
    answer small 0x00000006 = some ⟨.undefined, 0⟩ := by decide
/-- `pow 0x53, 254` and `pow 0x53, 258`: the product is exact. -/
theorem test_pow : answer small 0x00FE5307 = some ⟨.ok, 0xCA⟩ ∧ answer small 0x01025307 = some ⟨.ok, 0xC3⟩ := by decide
/-- `Pow(0, 0)` under both values of the parameter (L1.7, L2.8). -/
theorem test_pow_zero_zero : answer small 0x00000007 = some ⟨.ok, 0⟩ ∧
    answer { small with config := { small.config with powZeroZeroIsOne := true } } 0x00000007 = some ⟨.ok, 1⟩ := by decide
theorem test_log : answer small 0x00005308 = some ⟨.ok, 0x30⟩ ∧ answer small 0x00000008 = some ⟨.undefined, 0⟩ := by decide
theorem test_exp : answer small 0x0000FE09 = some ⟨.ok, 0xF6⟩ ∧ answer small 0x0000FF09 = some ⟨.ok, 1⟩ := by decide
theorem test_clmul : answer State.reset 0x00CA530A = some ⟨.ok, 1⟩ ∧ answer small 0x01CA530A = some ⟨.ok, 0x8F⟩ ∧
    answer small 0x1ECA530A = some ⟨.fatal, 3⟩ := by decide
theorem test_qsel : answer { small with sel := 1 } 0x0000000B = some ⟨.ok, 1⟩ ∧ answer State.reset 0x0000000B = some ⟨.fatal, 4⟩ := by
  decide
theorem test_catval : answer State.reset 0x0000010C = some ⟨.ok, 0x11D⟩ := by decide
theorem test_catgen : answer State.reset 0x0000000D = some ⟨.ok, 3⟩ ∧ answer State.reset 0x00001E0D = some ⟨.fatal, 3⟩ := by decide
theorem test_qstat : answer State.reset 0x0000000E = some ⟨.ok, 0⟩ ∧ answer faulted 0x0000000E = some ⟨.ok, 0x42⟩ := by decide
theorem test_qfcmd : answer faulted 0x0000000F = some ⟨.ok, 0x00020104⟩ ∧ answer faulted 0x0000001F = some ⟨.fatal, 4⟩ := by decide
/-- A refused command keeps the first cause, and a malformed one is not looked at. -/
theorem test_refusal : answer faulted 0x00CA5304 = some ⟨.fatal, 4⟩ ∧ answer faulted 0 = some ⟨.fatal, 4⟩ := by decide

/-- BUILD 1 right after reset: the first ten entries (41_build.md R421), the copy, and `LOG[0x1d] = 8`. -/
theorem test_build : ∃ t, step (State.reset.withFetchWord 32 0x00000101) = .next t ∧ t.sel = 1 ∧ t.state = .ready ∧
    (List.range 10).map t.antilog.read = [0x01, 0x02, 0x04, 0x08, 0x10, 0x20, 0x40, 0x80, 0x1d, 0x3a] ∧
    t.antilog.read 263 = 0x1d ∧ t.log.read 0x1d = 8 := by
  refine ⟨_, rfl, rfl, rfl, ?_⟩
  decide +kernel

/-- Blank and comment-only lines (log entry 6). -/
theorem test_assembler_no_command : parseLine "".toList = some none ∧ parseLine "  ; a comment".toList = some none := by
  decide

/-- `fail(DIV_BY_ZERO)` shows status code 2 (30_encoding.md R321), and nothing while `rst` is asserted (R700). -/
theorem test_response_port : rspStatus .take (failWith .divByZero small) = some 2 ∧
    rspData .take (failWith .divByZero small) = some 0 ∧ rspStatus .reset (failWith .divByZero small) = none ∧
    rspStatus .take small = none := by decide

/-! ## Witnesses: states that meet the hypotheses of the statements -/

/-- The engine after `build 0` right after reset. -/
def built : State := buildField 0 ⟨0x11b, 0x03⟩ State.reset

/-- The engine after `build 1` right after reset. -/
def built1 : State := buildField 1 ⟨0x11d, 0x02⟩ State.reset

/-- The tables are canonical right after reset. -/
theorem reset_canonical (c : Config) : TablesCanonical (State.resetWith c) := ⟨Memory.wf_nil _, Memory.wf_nil _⟩

/-- A BUILD right after reset, of an entry that the catalog holds. -/
theorem built_fieldBuilt {c : Config} (hc : c.WF) {k : Byte} {e : CatEntry} (he : catalogEntry c k = some e) :
    FieldBuilt (buildField k e (State.resetWith c)) e where
  inv :=
    { canonical := buildField_canonical k e (reset_canonical c)
      registers :=
        ⟨buildField_busy _ _ _, by rw [buildField_sel]; exact (catalogEntry_eq_some.1 he).1,
          by rw [buildField_state, buildField_faultCause]; simp [State.resetWith],
          by rw [buildField_faultCause]; simp [State.resetWith], fun _ => by rw [buildField_faultCmd]; rfl⟩
      response := by constructor <;> (intro d h; rw [buildField_pending] at h; cases h)
      built := buildField_built (reset_canonical c) (by exact he) }
  ready := buildField_state _ _ _
  wf := by rw [buildField_config]; exact hc
  entry := by rw [buildField_config, buildField_sel]; exact he

/-- `FieldBuilt` holds after `build 0`, for the entry 0x11b with generator 0x03. -/
theorem witness_field_built : FieldBuilt built ⟨0x11b, 0x03⟩ := built_fieldBuilt reference_wf (by decide)

/-- `FieldBuilt` holds after `build 1`, for the entry 0x11d with generator 0x02. -/
theorem witness_field_built_1 : FieldBuilt built1 ⟨0x11d, 0x02⟩ := built_fieldBuilt reference_wf (by decide)

/-- A state in FAULT that meets the invariant. -/
theorem witness_fault_inv : faulted.Inv where
  canonical := reset_canonical Config.reference
  registers := ⟨rfl, by decide, by decide, by decide, by decide⟩
  response := by constructor <;> (intro d h; cases h)
  built := TablesBuilt.of_not_ready (by decide)

/-! ### Encoding -/

theorem witness_EncodeInvertsDecode : decodeWord 0x00CA5304 = .ok (.mul 0x53 0xCA) := by decide

/-- One word for each clause. -/
theorem witness_EveryWordIsCommandIllegalOrReserved : fieldOP 0xFFFFFFF0 = 0 ∧
    (fieldOP 0x00CA5384 ≠ 0 ∧ HasReservedBit 0x00CA5384) ∧ (fieldOP 0xFFFFFF0A ≠ 0 ∧ ¬ HasReservedBit 0xFFFFFF0A) := by
  unfold HasReservedBit; decide

/-- Literals at the edges of their fields, both ways. -/
theorem witness_AssemblerEncodesOrRefuses : assemble ⟨.catgen, [255]⟩ = some 0x0000FF0D ∧ assemble ⟨.catgen, [256]⟩ = none ∧
    assemble ⟨.div, [255, 255]⟩ = some 0x00FFFF05 ∧ assemble ⟨.div, [255, 256]⟩ = none ∧
    assemble ⟨.pow, [2, 65535]⟩ = some 0xFFFF0207 ∧ assemble ⟨.pow, [2, 65536]⟩ = none ∧
    assemble ⟨.clmul, [1, 2, 255]⟩ = some 0xFF02010A ∧ assemble ⟨.clmul, [1, 2, 256]⟩ = none ∧
    assemble ⟨.word, [2 ^ 32 - 1]⟩ = some 0xFFFFFFFF ∧ assemble ⟨.word, [2 ^ 32]⟩ = none := by decide

/-! ### Steps, ports and reset -/

/-- `small`, with `x` on its ports at the next step. -/
def under (x : HostInput) (s : State) : State := { s with inputs := [x] }

/-- The host offers `mul 0x53, 0xca` to an engine that is out of reset, not busy and has no response waiting. -/
theorem witness_StepRunsDecodedCommand :
    (under (.offer 0x00CA5304) small).inputs = [.offer 0x00CA5304] ∧ (HostInput.offer 0x00CA5304).rst = .released ∧
      (HostInput.offer 0x00CA5304).cmd = some 0x00CA5304 ∧ small.busy = false ∧ small.pending = none ∧
      decodeWord 0x00CA5304 = .ok (.mul 0x53 0xCA) := by decide

/-- One word and state for each line of the priority order, lines 6 and 7 included. -/
theorem witness_ChecksRunInPriorityOrder :
    (faulted.state = .fault ∧ fieldOP 0x00000000 ≠ 0xE ∧ fieldOP 0x00000000 ≠ 0xF) ∧ fieldOP 0x000000F0 = 0x0 ∧
    (0x000000F1 : Word) &&& tableMask (fieldOP 0x000000F1) ≠ zext32 (fieldOP 0x000000F1) ∧
    indexOperand (.build 30) = some 30 ∧ nCatalog ≤ (30 : Byte).toNat ∧
    (needsReady (.div 0 0) = true ∧ State.reset.state = .empty) ∧ recoverableFailure (.div 0 0) = some .divByZero ∧
    recoverableFailure (.inv 0) = some .undefined ∧ recoverableFailure (.log 1) = none := by decide

theorem witness_OnlyOpcodeZeroIsIllegal : fieldOP 0xFFFFFFF0 = 0x0 ∧ small.state ≠ .fault := by decide

theorem witness_ReservedBitsAreFatal : (0xE : BitVec 4) ≠ 0x0 ∧ fieldOP 0x8000000E = 0xE ∧ HasReservedBit 0x8000000E ∧
    small.state ≠ .fault ∧ fieldRSV 0xFFFFFF1A ≠ 0x0 ∧ fieldOP 0xFFFFFF1A ≠ 0x0 := by
  unfold HasReservedBit; decide

/-- The engine after `build 0` with its response waiting: a command is not accepted, and the response can be taken. -/
def waiting : State := respond .ok 0x00000000 built

theorem waiting_inv : waiting.Inv where
  canonical := witness_field_built.inv.canonical.of_tables_eq rfl rfl
  registers := ⟨witness_field_built.inv.registers.busy, witness_field_built.inv.registers.sel,
    witness_field_built.inv.registers.cause, witness_field_built.inv.registers.noExpRange,
    witness_field_built.inv.registers.cmd⟩
  response := by constructor <;> (intro d h; cases h)
  built := witness_field_built.inv.built.of_eq rfl rfl rfl rfl rfl

theorem witness_CommandAcceptedOnlyWhenReady :
    cmdReady (.offer 0x0000000E) waiting = false ∧ waiting.Inv ∧ waiting.pending = some ⟨.ok, 0x00000000⟩ ∧
      HostInput.take.rst = .released ∧ HostInput.take.rspReady = true ∧ cmdReady .take small = true :=
  ⟨rfl, waiting_inv, rfl, rfl, rfl, rfl⟩

/-- The cases of R330: no sample; a command accepted; a command not accepted; nothing offered. -/
theorem witness_OneResponseForEachAcceptedCommand : State.reset.inputs = [] ∧
    ((HostInput.offer 0x0000000E).rst = .released ∧ cmdReady (.offer 0x0000000E) small = true) ∧
    cmdReady (.offer 0x0000000E) waiting = false ∧ HostInput.take.cmd = none := ⟨rfl, ⟨rfl, rfl⟩, rfl, rfl⟩

/-- The cases of R321: a pending response out of reset, and words answered UNDEFINED, DIV_BY_ZERO and FATAL. -/
theorem witness_ResponseStatuses : HostInput.idle.rst ≠ .asserted ∧ waiting.pending = some ⟨.ok, 0x00000000⟩ ∧
    (∃ t, runWord 0x00000008 small = .next t ∧ t.pending = some ⟨.undefined, 0⟩) ∧
    (∃ t, runWord 0x00000006 small = .next t ∧ t.pending = some ⟨.undefined, 0⟩) ∧
    (∃ t, runWord 0x0000FF05 small = .next t ∧ t.pending = some ⟨.divByZero, 0⟩) ∧
    ∃ t, runWord 0x00001E01 small = .next t ∧ t.pending = some ⟨.fatal, 3⟩ :=
  ⟨by decide, rfl, ⟨_, rfl, rfl⟩, ⟨_, rfl, rfl⟩, ⟨_, rfl, rfl⟩, _, rfl, by decide⟩

theorem witness_IdleEngineHolds : State.reset.inputs = [] ∧ (under .idle small).inputs = [.idle] ∧
    HostInput.idle.rst = .released ∧ HostInput.idle.cmd = none ∧ HostInput.idle.rspReady = false := by decide

/-- Reset leaves FAULT. -/
theorem witness_ResetStepResetsEngine : HostInput.reset.rst = .asserted ∧ (under .reset faulted).state = .fault ∧
    ∃ t, step (under .reset faulted) = .next t ∧ t.state ≠ .fault := ⟨rfl, rfl, _, rfl, by decide⟩

/-- `rst` rises after the first of BUILD's 510 loop iterations, and after the last of the walk. -/
theorem witness_ResetCutsBuildShort : ∀ n ∈ [1, 255], TablesCanonical State.reset ∧
    (under ⟨.duringCommand n, some 0x00000001, false⟩ State.reset).inputs = [⟨.duringCommand n, some 0x00000001, false⟩] ∧
    some (encode (.build 0)) = some 0x00000001 ∧ cmdReady ⟨.duringCommand n, some 0x00000001, false⟩ State.reset = true ∧
    State.reset.state ≠ .fault ∧ catalogEntry State.reset.config 0 = some ⟨0x11b, 0x03⟩ := fun _ _ =>
  ⟨reset_canonical Config.reference, rfl, by decide, rfl, by decide, by decide⟩

/-- The reset state's tables replaced by others that are canonical. -/
theorem witness_ResetStateHasResetValues : (∃ c, State.reset = State.resetWith c) ∧ State.reset.state = .empty ∧
    State.reset.config.WF ∧ (29 : Byte).toNat < nCatalog ∧ TablesCanonical State.reset ∧
    TablesCanonical { State.reset with antilog := small.antilog, log := small.log } := by
  refine ⟨⟨_, rfl⟩, rfl, reference_wf, by decide, reset_canonical Config.reference, ?_⟩
  unfold TablesCanonical; decide

/-- One transition of each kind: EMPTY to READY, EMPTY to FAULT, FAULT to EMPTY; and a step with no sample. -/
theorem witness_OnlyStatedStateTransitions :
    (∃ t, step (under (.offer 0x00001D01) State.reset) = .next t ∧ t.state ≠ State.reset.state) ∧
    (∃ t, step (under (.offer 0x00CA5304) State.reset) = .next t ∧ t.state ≠ State.reset.state) ∧
    (∃ t, step (under .reset faulted) = .next t ∧ t.state ≠ faulted.state) ∧ step State.reset = .next State.reset ∧
    (State.reset.state = .empty ∧ needsReady .qsel = true) ∧ (built.Inv ∧ built.state = .ready) ∧
    (faulted.state = .fault ∧ Instr.build 0 ≠ .qstat ∧ Instr.build 0 ≠ .qfcmd) :=
  ⟨⟨_, rfl, by decide⟩, ⟨_, rfl, by decide⟩, ⟨_, rfl, by decide⟩, rfl, by decide,
    ⟨witness_field_built.inv, witness_field_built.ready⟩, by decide⟩

/-- A BUILD of the last entry, and the BUILD one past it, which fails. -/
theorem witness_OnlyBuildWritesSel :
    (∃ t, runWord 0x00001D01 small = .next t ∧ t.sel = 29) ∧
    (∃ t, runWord 0x00001E01 small = .next t ∧ ∃ d, t.pending = some ⟨.fatal, d⟩) ∧
    small.state ≠ .fault ∧ (29 : Byte).toNat < nCatalog :=
  ⟨⟨_, rfl, by decide⟩, ⟨_, rfl, _, rfl⟩, by decide, by decide⟩

theorem witness_FaultCmdHoldsFirstFaultingWord : ∃ t, runWord 0x00001E01 small = .next t ∧ small.state ≠ .fault ∧
    t.state = .fault ∧ t.faultCmd ≠ small.faultCmd := ⟨_, rfl, by decide, by decide, by decide⟩

theorem witness_FaultOutputFollowsState :
    (∃ t, step (under (.offer 0x00000000) small) = .next t ∧ faultOut (under (.offer 0x00000000) small) = false ∧
      faultOut t = true) ∧
    (∃ t, step (under .reset faulted) = .next t ∧ faultOut (under .reset faulted) = true ∧ faultOut t = false) :=
  ⟨⟨_, rfl, by decide, by decide⟩, ⟨_, rfl, by decide, by decide⟩⟩

/-! ### Failures -/

theorem witness_FatalFailureIsPrecise : small.state ≠ .fault ∧ faulted.state = .fault ∧
    ∃ t, runWord 0x00001E0C small = .next t ∧ ∃ d, t.pending = some ⟨.fatal, d⟩ := ⟨by decide, rfl, _, rfl, _, rfl⟩

theorem witness_FaultRefusesEveryOtherCommand : faulted.state = .fault ∧ fieldOP 0x00000001 ≠ 0xE ∧
    fieldOP 0x00000001 ≠ 0xF := by decide

theorem witness_NoCommandLeavesFault : faulted.state = .fault ∧
    ∃ t, step (under .reset faulted) = .next t ∧ t.state ≠ .fault := ⟨rfl, _, rfl, by decide⟩

/-- `log 0` and `div 5, 0`. -/
theorem witness_RecoverableFailureChangesNothing :
    (∃ t, runWord 0x00000008 small = .next t ∧ t.pending = some ⟨.undefined, 0⟩) ∧
    (∃ t, runWord 0x00000505 small = .next t ∧ t.pending = some ⟨.divByZero, 0⟩) := ⟨⟨_, rfl, rfl⟩, ⟨_, rfl, rfl⟩⟩

theorem witness_FieldOperationsNeedReady : needsReady .qsel = true ∧ needsReady (.inv 0) = true ∧
    State.reset.state = .empty ∧ faulted.state = .fault ∧ small.state = .ready := by decide

/-- Indices 29 and 30, the edge, and 255. -/
theorem witness_InvalidIndexIsFatal : (29 : Byte).toNat < nCatalog ∧ indexOperand (.clmul 1 2 30) = some 30 ∧
    nCatalog ≤ (30 : Byte).toNat ∧ indexOperand (.build 255) = some 255 ∧ nCatalog ≤ (255 : Byte).toNat ∧
    small.state ≠ .fault := by decide

/-- A state whose cause is `EXP_RANGE` already; no run reaches it. -/
theorem witness_ExpRangeIsNeverRaised : small.state = .ready ∧
    ∃ t, runWord 0x0000000E { small with faultCause := .expRange } = .next t ∧ t.faultCause = .expRange :=
  ⟨rfl, _, rfl, rfl⟩

/-! ### Field operations, catalog operations, BUILD and queries -/

/-- The hypotheses that ADD's and SUB's statements put on a state; each clause of `FieldCommand` has one. -/
theorem witness_FieldCommand : State.reset.state = .empty ∧ faulted.state = .fault ∧ small.state = .ready ∧
    fieldOP 0x01CA5302 = fieldOP 0x00CA5302 ∧ HasReservedBit 0x01CA5302 := by
  unfold HasReservedBit; decide

/-- MUL, DIV, INV, LOG and EXP: READY, a built field, and its entry 0x11b with generator 0x03; nonzero operands. -/
theorem witness_MulDivInvLogExp : small.state = .ready ∧ FieldBuilt built ⟨0x11b, 0x03⟩ ∧ (0x53 : Byte) ≠ 0x00 ∧
    (0xCA : Byte) ≠ 0x00 := ⟨rfl, witness_field_built, by decide, by decide⟩

/-- POW: both of the statement's entries. -/
theorem witness_PowLooksUpMultipleOfLog : small.state = .ready ∧ FieldBuilt built ⟨0x11b, 0x03⟩ ∧
    FieldBuilt built1 ⟨0x11d, 0x02⟩ ∧ (0x02 : Byte) ≠ 0x00 := ⟨rfl, witness_field_built, witness_field_built_1, by decide⟩

/-- CLMUL, CATVAL and CATGEN: the last valid index and both of the statements' values, in EMPTY and READY; and the clauses of
`CatalogCommand`. -/
theorem witness_CatalogCommand : State.reset.state ≠ .fault ∧ small.state ≠ .fault ∧
    catalogEntry State.reset.config 0 = some ⟨0x11b, 0x03⟩ ∧ catalogEntry small.config 1 = some ⟨0x11d, 0x02⟩ ∧
    catalogEntry small.config 29 = some ⟨0x1f9, 0x03⟩ ∧ small.config.WF ∧ nCatalog ≤ (30 : Byte).toNat ∧
    faulted.state = .fault ∧ fieldOP 0x0001000C = fieldOP 0x0000000C ∧ HasReservedBit 0x0001000C :=
  ⟨by decide, by decide, by decide, by decide, by decide, reference_wf, by decide, rfl, by decide, by
    unfold HasReservedBit; decide⟩

/-- BUILD: a valid entry from EMPTY, canonical tables; an exponent that no later one repeats; a LOG index that no power is. -/
theorem witness_BuildConstructsTables : State.reset.state ≠ .fault ∧ TablesCanonical State.reset ∧
    catalogEntry State.reset.config 0 = some ⟨0x11b, 0x03⟩ ∧ CatEntry.WF ⟨0x11b, 0x03⟩ ∧
    (∀ j, 254 < j → j < 255 → genPow ⟨0x11b, 0x03⟩ j ≠ genPow ⟨0x11b, 0x03⟩ 254) ∧
    ∀ i < 255, (genPow ⟨0x11b, 0x03⟩ i).toNat ≠ 256 :=
  ⟨by decide, reset_canonical Config.reference, by decide, catalogEntry_wf reference_wf (k := 0) (by decide),
    fun j h1 h2 => by omega, fun i _ h => absurd (genPow ⟨0x11b, 0x03⟩ i).isLt (by omega)⟩

theorem witness_RebuildReplacesField : built.Inv ∧ built.state = .ready ∧ built.config.WF ∧ (29 : Byte).toNat < nCatalog :=
  ⟨witness_field_built.inv, witness_field_built.ready, witness_field_built.wf, by decide⟩

theorem witness_QselReadsSelector : small.state = .ready ∧ built.Inv ∧ State.reset.state ≠ .fault ∧
    (29 : Byte).toNat < nCatalog := ⟨rfl, witness_field_built.inv, by decide, by decide⟩

theorem witness_QstatReadsStatus : fieldOP 0x0000001E = 0xE ∧ HasReservedBit 0x0000001E ∧ faulted.state = .fault ∧
    small.state ≠ .fault := by unfold HasReservedBit; decide

/-- A fatal failure, then another command. -/
theorem witness_QfcmdReadsFaultingWord : fieldOP 0x0000001F = 0xF ∧ HasReservedBit 0x0000001F ∧ faulted.state = .fault ∧
    (built.Inv ∧ built.state ≠ .fault) ∧ ∃ t u, small.state ≠ .fault ∧ runWord 0x00001E01 small = .next t ∧
      t.state = .fault ∧ runWord 0x00000000 t = .next u :=
  ⟨by decide, by unfold HasReservedBit; decide, rfl, ⟨witness_field_built.inv, by rw [witness_field_built.ready]; decide⟩,
    _, _, by decide, rfl, by decide, rfl⟩

/-! ### Frames, invariants and field arithmetic -/

/-- `mul 0x53, 0xca` answers OK; a BUILD answers; and an illegal word is answered FATAL outside FAULT and in it. -/
theorem witness_CommandsExceptBuildChangeNothing :
    (∃ t, exec (.mul 0x53 0xCA) small = .next t ∧ t.pending = some ⟨.ok, 1⟩ ∧ Status.ok ≠ .fatal) ∧
    TablesCanonical State.reset ∧ State.reset.state ≠ .fault ∧ (29 : Byte).toNat < nCatalog ∧
    (∃ t, exec (.build 29) State.reset = .next t) ∧
    (∃ t, runWord 0x00000000 small = .next t ∧ t.pending = some ⟨.fatal, 1⟩) ∧
    ∃ t, runWord 0x00000000 faulted = .next t ∧ t.pending = some ⟨.fatal, 4⟩ :=
  ⟨⟨_, rfl, by decide, by decide⟩, reset_canonical Config.reference, by decide, by decide, ⟨_, rfl⟩,
    ⟨_, rfl, by decide⟩, _, rfl, by decide⟩

/-- A word that is no BUILD, a BUILD in FAULT, a BUILD of index 30; and the three steps that write no table. -/
theorem witness_OnlyBuildWritesTables : (∀ k : Byte, (0x0000000E : Word) ≠ encode (.build k)) ∧
    (∃ t, runWord 0x0000000E small = .next t) ∧ faulted.state = .fault ∧ nCatalog ≤ (30 : Byte).toNat ∧
    HostInput.reset.rst = .asserted ∧ cmdReady (.offer 0x00000001) waiting = false ∧
    ∀ k : Byte, HostInput.take.cmd ≠ some (encode (.build k)) :=
  ⟨by decide +kernel, ⟨_, rfl⟩, rfl, by decide, rfl, rfl, fun _ h => by cases h⟩

theorem witness_ParametersAreConstant : ∃ t, step (under (.offer 0x0000000E) small) = .next t := ⟨_, rfl⟩

/-- States that meet the invariant in READY and in FAULT, with a step. -/
theorem witness_StepKeepsInvariant : (built.Inv ∧ ∃ t, step built = .next t) ∧
    (faulted.Inv ∧ ∃ t, step faulted = .next t) :=
  ⟨⟨witness_field_built.inv, _, rfl⟩, ⟨witness_fault_inv, _, rfl⟩⟩

theorem witness_ReadyTablesAreInverse : built.Inv ∧ built.state = .ready ∧ built.config.WF :=
  ⟨witness_field_built.inv, witness_field_built.ready, witness_field_built.wf⟩

/-- The last index of the periodic table, and nonzero operands; also for AntilogTableIsPeriodic and TableIndicesStayInRange. -/
theorem witness_AntilogTableIsPeriodic : built.Inv ∧ built.state = .ready ∧ built.config.WF ∧ 509 < 510 ∧
    (0xFF : Byte) ≠ 0x00 ∧ FieldBuilt built ⟨0x11b, 0x03⟩ :=
  ⟨witness_field_built.inv, witness_field_built.ready, witness_field_built.wf, by decide, by decide, witness_field_built⟩

/-- Two engines with the same field whose unused table entries differ. -/
theorem witness_ResponsesDependOnlyOnSelector :
    ∃ s u : State, s.Inv ∧ u.Inv ∧ s.state = .ready ∧ u.state = .ready ∧ s.sel = u.sel ∧ s.config = u.config ∧
      s.config.WF ∧ s.antilog.read 511 ≠ u.antilog.read 511 := by
  have hc : TablesCanonical { State.reset with antilog := [(511, 0x01)] } := by unfold TablesCanonical; decide
  have he : catalogEntry Config.reference 0 = some ⟨0x11b, 0x03⟩ := by decide
  have hb := witness_field_built
  refine ⟨built, buildField 0 ⟨0x11b, 0x03⟩ { State.reset with antilog := [(511, 0x01)] }, hb.inv, ?_, hb.ready,
    buildField_state _ _ _, ?_, ?_, hb.wf, ?_⟩
  · exact
      { canonical := buildField_canonical 0 _ hc
        registers := ⟨buildField_busy _ _ _, by rw [buildField_sel]; decide,
          by rw [buildField_state, buildField_faultCause]; simp [State.reset, State.resetWith],
          by rw [buildField_faultCause]; decide, fun _ => by rw [buildField_faultCmd]; rfl⟩
        response := by constructor <;> (intro d h; rw [buildField_pending] at h; cases h)
        built := buildField_built hc he }
  · rw [built, buildField_sel, buildField_sel]
  · rw [built, buildField_config, buildField_config]
  · rw [built, buildField_antilog, buildField_antilog, builtAntilog_unused _ _ (by decide),
      builtAntilog_unused _ _ (by decide)]
    decide

/-- An irreducible value and a nonzero element; the loop's last iteration. -/
theorem witness_ClmulIsPolynomialProduct : IrreducibleValue 0x11b ∧ (0xFF : Byte) ≠ 0x00 ∧ 8 ≤ 8 :=
  ⟨(catalogEntry_wf reference_wf (k := 0) (e := ⟨0x11b, 0x03⟩) (by decide)).irreducible, by decide, by decide⟩

/-- `REF_CATALOG` meets R8 and its values are pairwise distinct. -/
theorem witness_IrreducibleValuesAreTheThirty : Config.reference.WF ∧ ∀ j k : Fin nCatalog,
    (Config.reference.catalog[j.val]'j.isLt).value = (Config.reference.catalog[k.val]'k.isLt).value → j = k :=
  ⟨reference_wf, by decide +kernel⟩

/-- Exponents 0, 255 and 65535, which agree `mod 255`. -/
theorem witness_PowDependsOnExponentMod255 : small.state = .ready ∧ (0x53 : Byte) ≠ 0x00 ∧
    (0 : Half).toNat % 255 = (65535 : Half).toNat % 255 ∧ (0 : Half).toNat % 255 = (255 : Half).toNat % 255 ∧
    ((1 : Half) = 0 ↔ (255 : Half) = 0) ∧ FieldBuilt built ⟨0x11b, 0x03⟩ :=
  ⟨rfl, by decide, by decide, by decide, by decide, witness_field_built⟩

/-- A built field and nonzero operands; also for TableArithmeticIsFieldArithmetic. -/
theorem witness_FieldOperationsObeyFieldLaws : FieldBuilt built ⟨0x11b, 0x03⟩ ∧ FieldBuilt built1 ⟨0x11d, 0x02⟩ ∧
    (0xFF : Byte) ≠ 0x00 ∧ (254 : Byte).toNat < 255 := ⟨witness_field_built, witness_field_built_1, by decide, by decide⟩

/-- A catalog of one polynomial throughout, with another primitive generator, 0x05, under the same `POW_ZERO_ZERO`. -/
def otherCatalog : Config := ⟨Vector.replicate nCatalog ⟨0x11b, 0x05⟩, false⟩

theorem otherCatalog_wf : otherCatalog.WF := fun k h => by
  have hk : otherCatalog.catalog[k]'h = ⟨0x11b, 0x05⟩ := by simp [otherCatalog]
  rw [hk]
  exact catEntry_wf_of_checks (catalogEntry_wf reference_wf (k := 0) (e := ⟨0x11b, 0x03⟩) (by decide)).irreducible
    (by decide) (by decide +kernel)

/-- The same modulus built under two generators, 0x03 and 0x05. -/
theorem witness_ResultsIndependentOfGenerator : FieldBuilt built ⟨0x11b, 0x03⟩ ∧
    FieldBuilt (buildField 7 ⟨0x11b, 0x05⟩ (State.resetWith otherCatalog)) ⟨0x11b, 0x05⟩ ∧
    built.config.powZeroZero = (buildField 7 ⟨0x11b, 0x05⟩ (State.resetWith otherCatalog)).config.powZeroZero :=
  ⟨witness_field_built, built_fieldBuilt otherCatalog_wf (by decide), by
    rw [built, buildField_config, buildField_config]; decide⟩

end Sys2Proof.Tests
end

section
/-! PROOFS. Whatever decodes is the word of its command (30_encoding.md R303, R305), format by format. -/
namespace Sys2Proof

/-- A field above `OP` that the format's mask covers is 0 in a word that passes the check. -/
theorem extract_eq_zero_of_mask {w : Word} {f : Format} (h : w &&& f.mask = (fieldOP w).setWidth 32) (k n : Nat)
    (hk : 4 ≤ k) (hm : ∀ i < n, f.mask.getLsbD (k + i) = true) : w.extractLsb' k n = 0#n :=
  extract_eq_zero h k n hm fun i _ => by
    rw [BitVec.getLsbD_setWidth, BitVec.getLsbD_of_ge _ _ (by omega), Bool.and_false]

/-- A word that passes the check of any format is laid out from its fields, `RSV` being 0. -/
theorem layout_fields {w : Word} {f : Format} (h : w &&& f.mask = (fieldOP w).setWidth 32) :
    layout (fieldC w) (fieldB w) (fieldA w) (fieldOP w) = w := by
  have hrsv : fieldRSV w = 0x0#4 := extract_eq_zero_of_mask h 4 4 (by decide) (by cases f <;> decide)
  have hw := word_eq_fields w
  rw [hrsv] at hw
  exact hw

/-- Format N. -/
theorem wordN_of_mask {w : Word} (h : w &&& Format.N.mask = (fieldOP w).setWidth 32) : wordN (fieldOP w) = w := by
  have hA : fieldA w = 0 := extract_eq_zero_of_mask h 8 8 (by decide) (by decide)
  have hB : fieldB w = 0 := extract_eq_zero_of_mask h 16 8 (by decide) (by decide)
  have hC : fieldC w = 0 := extract_eq_zero_of_mask h 24 8 (by decide) (by decide)
  have hw := layout_fields h
  rwa [hA, hB, hC] at hw

/-- Format U. -/
theorem wordU_of_mask {w : Word} (h : w &&& Format.U.mask = (fieldOP w).setWidth 32) :
    wordU (fieldA w) (fieldOP w) = w := by
  have hB : fieldB w = 0 := extract_eq_zero_of_mask h 16 8 (by decide) (by decide)
  have hC : fieldC w = 0 := extract_eq_zero_of_mask h 24 8 (by decide) (by decide)
  have hw := layout_fields h
  rwa [hB, hC] at hw

/-- Format R. -/
theorem wordR_of_mask {w : Word} (h : w &&& Format.R.mask = (fieldOP w).setWidth 32) :
    wordR (fieldA w) (fieldB w) (fieldOP w) = w := by
  have hC : fieldC w = 0 := extract_eq_zero_of_mask h 24 8 (by decide) (by decide)
  have hw := layout_fields h
  rwa [hC] at hw

/-- Format T. -/
theorem wordT_of_mask {w : Word} (h : w &&& Format.T.mask = (fieldOP w).setWidth 32) :
    wordT (fieldA w) (fieldB w) (fieldC w) (fieldOP w) = w := layout_fields h

/-- Format P. -/
theorem wordP_of_mask {w : Word} (h : w &&& Format.P.mask = (fieldOP w).setWidth 32) :
    wordP (fieldA w) (fieldN w) (fieldOP w) = w := by
  rw [fieldN_eq]
  exact layout_fields h

/-- A word that decodes is the encoding of the command it decodes to. -/
theorem encode_of_decodeWord {w : Word} {i : Instr} (h : decodeWord w = .ok i) : encode i = w := by
  obtain ⟨f, command, hrow, hmask, rfl⟩ := decodeWord_eq_ok.1 h
  unfold opcodeRow at hrow
  split at hrow <;> cases hrow
  case h_1 hop | h_6 hop | h_8 hop | h_9 hop | h_12 hop | h_13 hop =>
    have hw := wordU_of_mask hmask
    rwa [hop] at hw
  case h_2 hop | h_3 hop | h_4 hop | h_5 hop =>
    have hw := wordR_of_mask hmask
    rwa [hop] at hw
  case h_7 hop =>
    have hw := wordP_of_mask hmask
    rwa [hop] at hw
  case h_10 hop =>
    have hw := wordT_of_mask hmask
    rwa [hop] at hw
  case h_11 hop | h_14 hop | h_15 hop =>
    have hw := wordN_of_mask hmask
    rwa [hop] at hw

end Sys2Proof
end

section
/-! PROOFS. Every command answers, and everything an accepted word can do (30_encoding.md R310; 60_exceptions.md R610, R612). -/
namespace Sys2Proof.Machine

/-! ## Every command answers -/

/-- A field operation gives a next state in every state. -/
theorem fieldOp_isNext (w : Word) (s r : State) : ∃ t, fieldOp w s r = .next t := by
  cases hs : s.state with
  | empty => exact ⟨_, fieldOp_empty hs w r⟩
  | ready => exact ⟨_, fieldOp_ready hs w r⟩
  | fault => exact ⟨_, fieldOp_fault hs w r⟩

/-- A catalog operation gives a next state in every state. -/
theorem catalogOp_isNext (w : Word) (k : Byte) (s : State) (r : CatEntry → State) : ∃ t, catalogOp w k s r = .next t := by
  by_cases hs : s.state = .fault
  · exact ⟨_, catalogOp_fault hs w k r⟩
  · cases he : catalogEntry s.config k with
    | some e => exact ⟨_, catalogOp_valid hs he w r⟩
    | none => exact ⟨_, catalogOp_invalid hs he w r⟩

/-- Every command gives a next state in every state. -/
theorem exec_isNext (i : Instr) (s : State) : ∃ t, exec i s = .next t := by
  cases i with
  | qstat | qfcmd => exact ⟨_, rfl⟩
  | build | clmul | catval | catgen => exact catalogOp_isNext _ _ s _
  | _ => exact fieldOp_isNext _ s _

/-- In FAULT every command but QSTAT and QFCMD is refused (60_exceptions.md R612). -/
theorem exec_of_fault {i : Instr} {s : State} (hs : s.state = .fault) (hstat : i ≠ .qstat) (hfcmd : i ≠ .qfcmd) :
    exec i s = .next (refuseInFault s) := by
  obtain ⟨t, ht⟩ := exec_isNext i s
  cases exec_cases ht with
  | refused => exact ht
  | notReady he | failed _ he => rw [hs] at he; cases he
  | invalidIndex _ hn | built _ _ _ hn => exact absurd hs hn
  | answered _ _ _ _ _ hf => exact absurd (hf hs) (by simp [hstat, hfcmd])

/-- A command with a catalog index does not need READY (30_encoding.md R305). -/
theorem needsReady_of_indexOperand {i : Instr} {k : Byte} (h : indexOperand i = some k) : needsReady i = false := by
  cases i <;> simp [indexOperand] at h <;> rfl

/-- In EMPTY a command that needs READY raises `Fatal(NOT_READY)` (42_field_ops.md R440). -/
theorem exec_of_empty {i : Instr} {s : State} (hs : s.state = .empty) (hi : needsReady i = true) :
    exec i s = .next (raiseFatal .notReady (encode i) s) := by
  obtain ⟨t, ht⟩ := exec_isNext i s
  cases exec_cases ht with
  | notReady => exact ht
  | refused he | failed _ he => rw [hs] at he; cases he
  | invalidIndex _ _ hx => rw [needsReady_of_indexOperand hx] at hi; cases hi
  | built _ _ hb => subst hb; cases hi
  | answered _ _ _ hn => have := hn hi; rw [hs] at this; cases this

/-! ## Everything an accepted word can do -/

/-- A word that decodes runs its command. -/
theorem runWord_of_ok {w : Word} {i : Instr} (h : decodeWord w = .ok i) (s : State) : runWord w s = exec i s := by
  simp only [runWord, h]

/-- A word that does not decode is rejected. -/
theorem runWord_of_error {w : Word} {e : DecodeError} (h : decodeWord w = .error e) (s : State) :
    runWord w s = .next (rejectWord e w s) := by
  simp only [runWord, h]

/-- A word that is no command only gets a refusal in FAULT. -/
theorem rejectWord_of_fault {s : State} (h : s.state = .fault) (e : DecodeError) (w : Word) :
    rejectWord e w s = refuseInFault s := by
  rw [rejectWord, raiseFatal_of_fault h, ite_self]

/-- A word that is no command is fatal outside FAULT. -/
theorem rejectWord_of_not_fault {s : State} (h : s.state ≠ .fault) (e : DecodeError) (w : Word) :
    rejectWord e w s = raiseFatal (DecodeError.cause e) w s := by
  simp [rejectWord, h]

/-- A recoverable failure is not FATAL. -/
theorem recoverableFailure_ne_fatal {i : Instr} {st : Status} (h : recoverableFailure i = some st) : st ≠ .fatal := by
  rintro rfl
  cases i <;> simp [recoverableFailure] at h

/-- The next states an accepted word can have. -/
inductive WordOutcome (w : Word) (s : State) : State → Prop
  /-- it is refused in FAULT -/
  | refused (hs : s.state = .fault) : WordOutcome w s (refuseInFault s)
  /-- it raises a fatal failure -/
  | fatal (c : FaultCause) (hc : c ≠ .noCause ∧ c ≠ .expRange) (hs : s.state ≠ .fault) :
      WordOutcome w s (raiseFatal c w s)
  /-- it is a BUILD that succeeds -/
  | built (k : Byte) (e : CatEntry) (hw : w = encode (.build k)) (hs : s.state ≠ .fault)
      (he : catalogEntry s.config k = some e) : WordOutcome w s (respond .ok 0x00000000 (buildField k e s))
  /-- it answers, OK or with a recoverable failure, and changes nothing else -/
  | answered (st : Status) (d : Word) (hst : st ≠ .fatal) (hok : st ≠ .ok → s.state = .ready ∧ d = 0x00000000) :
      WordOutcome w s (respond st d s)

/-- Everything an accepted word can do. -/
theorem runWord_cases {w : Word} {s t : State} (h : runWord w s = .next t) : WordOutcome w s t := by
  cases hd : decodeWord w with
  | error e =>
    rw [runWord_of_error hd] at h
    cases h
    by_cases hs : s.state = .fault
    · rw [rejectWord_of_fault hs]; exact .refused hs
    · rw [rejectWord_of_not_fault hs]; exact .fatal _ (by cases e <;> decide) hs
  | ok i =>
    rw [runWord_of_ok hd] at h
    obtain rfl := encode_of_decodeWord hd
    cases exec_cases h with
    | refused hs => exact .refused hs
    | notReady hs => exact .fatal _ (by decide) (by rw [hs]; decide)
    | invalidIndex _ hs => exact .fatal _ (by decide) hs
    | built k e hi hs he => exact .built k e (by rw [hi]) hs he
    | failed st hs hi => exact .answered st _ (recoverableFailure_ne_fatal hi) fun _ => ⟨hs, rfl⟩
    | answered d => exact .answered .ok d (by decide) fun h => absurd rfl h

end Sys2Proof.Machine
end

section
/-! PROOFS. STATE, SEL and the fault registers (10_state.md R103, R104, R106). -/
namespace Sys2Proof.Machine

/-! ## STATE -/

/-- The response transfer keeps STATE. -/
@[simp] theorem transferResponse_state (x : HostInput) (s : State) : (transferResponse x s).state = s.state := by
  unfold transferResponse
  split <;> rfl

/-- An accepted word changes STATE only as a BUILD of a valid index in EMPTY, or by fatal entry. -/
theorem runWord_state_change {w : Word} {s t : State} (h : runWord w s = .next t) (hne : t.state ≠ s.state) :
    (s.state = .empty ∧ t.state = .ready ∧ ∃ k : Byte, w = encode (.build k) ∧ k.toNat < nCatalog ∧ t.sel = k) ∨
    (s.state ≠ .fault ∧ t.state = .fault ∧
      ∃ c, t.pending = some ⟨.fatal, zext32 c.code⟩ ∧ t.faultCause = c ∧ t.faultCmd = w) := by
  cases runWord_cases h with
  | refused | answered => exact absurd rfl hne
  | fatal c _ hs => rw [raiseFatal_of_not_fault hs]; exact .inr ⟨hs, rfl, c, rfl, rfl, rfl⟩
  | built k e hw hs he =>
    obtain ⟨hk, -⟩ := catalogEntry_eq_some.1 he
    have hempty : s.state = .empty := by
      cases hst : s.state with
      | empty => rfl
      | ready => simp [hst] at hne
      | fault => exact absurd hst hs
    exact .inl ⟨hempty, by simp, k, hw, hk, by simp⟩

/-- Settles O17, from everything a step can do. -/
theorem onlyStatedStateTransitions : Obligations.OnlyStatedStateTransitions := by
  refine ⟨rfl, rfl, rfl, fun s => ?_, fun i s hs hi => ?_, fun s hinv _ => ⟨hinv.registers.sel, hinv.built⟩,
    fun i s hs hstat hfcmd => exec_of_fault hs hstat hfcmd, fun _ => rfl, fun s t x rest hin h hne => ?_,
    fun s t hin h => ?_⟩
  · cases s.state <;> decide
  · rw [RaisesFatal, exec_of_empty hs hi, raiseFatal_of_not_fault (by simp [hs])]
  · obtain ⟨hnil, -⟩ | ⟨y, rest', hin', hstep⟩ := step_cases h
    · rw [hin] at hnil; cases hnil
    · rw [hin] at hin'
      cases hin'
      obtain ⟨hr, rfl⟩ | ⟨n, hr, rfl⟩ | ⟨w, hr, hw, -, hrun⟩ | ⟨-, -, rfl⟩ := hstep
      · exact .inl ⟨by simp [hr], rfl⟩
      · exact .inl ⟨by simp [hr], rfl⟩
      · obtain ⟨hs, ht, k, rfl, hk⟩ | ⟨hs, ht, c, hc⟩ := runWord_state_change hrun hne
        · exact .inr (.inl ⟨hr, hs, ht, k, hw, hk⟩)
        · exact .inr (.inr ⟨hr, hs, ht, w, c, hw, hc⟩)
      · simp at hne
  · obtain ⟨-, rfl⟩ | ⟨y, rest, hin', -⟩ := step_cases h
    · rfl
    · rw [hin] at hin'; cases hin'

/-! ## The fault registers -/

/-- Settles O19, from everything an accepted word can do. -/
theorem faultCmdHoldsFirstFaultingWord : Obligations.FaultCmdHoldsFirstFaultingWord := by
  refine ⟨fun w s t h hne => ?_, fun w s t h hs ht => ?_, fun _ => rfl, fun _ => rfl⟩
  · cases runWord_cases h with
    | refused | answered | built => simp at hne
    | fatal c _ hs => rw [raiseFatal_of_not_fault hs]; exact ⟨hs, rfl, rfl⟩
  · obtain ⟨-, hready, -⟩ | ⟨-, -, c, -, -, hcmd⟩ := runWord_state_change h (by rw [ht]; exact hs.symm)
    · rw [ht] at hready; cases hready
    · exact hcmd

/-! ## SEL -/

/-- QSTAT's data shows SEL in bits 15..8 (43_query.md R482). -/
theorem statusData_sel (s : State) : (statusData s).extractLsb' 8 8 = s.sel := by
  unfold statusData; apply BitVec.eq_of_getLsbD_eq; intro i hi
  simp only [BitVec.getLsbD_extractLsb', BitVec.getLsbD_append]; grind

/-- An accepted word keeps SEL, or is a BUILD of a valid index, answers OK and writes that index. -/
theorem runWord_sel {w : Word} {s t : State} (h : runWord w s = .next t) :
    t.sel = s.sel ∨ ∃ k : Byte, w = encode (.build k) ∧ k.toNat < nCatalog ∧ t.sel = k ∧ t.state = .ready ∧
      t.pending = some ⟨.ok, 0x00000000⟩ := by
  cases runWord_cases h with
  | refused | answered => exact .inl rfl
  | fatal c _ hs => rw [raiseFatal_of_not_fault hs]; exact .inl rfl
  | built k e hw hs he =>
    obtain ⟨hk, -⟩ := catalogEntry_eq_some.1 he
    exact .inr ⟨k, hw, hk, by simp, by simp, by simp⟩

/-- Settles O18, from what an accepted word does to SEL. -/
theorem onlyBuildWritesSel : Obligations.OnlyBuildWritesSel := by
  refine ⟨fun w s t h => ?_, fun w s t h ⟨d, hd⟩ => ?_, fun k s hs hk => ?_, fun _ => rfl,
    fun s => ⟨statusData s, rfl, statusData_sel s⟩⟩
  · obtain hsel | ⟨k, hw, hk, hsel, hready, -⟩ := runWord_sel h
    · exact .inl hsel
    · exact .inr ⟨k, hw, hk, hsel, hready⟩
  · obtain hsel | ⟨k, -, -, -, -, hok⟩ := runWord_sel h
    · exact hsel
    · rw [hd] at hok; cases hok
  · exact ⟨_, catalogOp_valid hs (catalogEntry_eq_some.2 ⟨hk, rfl⟩) _ _, by simp⟩

end Sys2Proof.Machine
end

section
/-! PROOFS. The tables of a built field (10_state.md R107 to R109), read through the powers of the entry's generator. -/
namespace Sys2Proof.Machine

/-- No power of a primitive generator is 0: the 255 powers already are the 255 nonzero elements. -/
theorem genPow_ne_zero {e : CatEntry} (h : PrimitiveGen e) {i : Nat} (hi : i < 255) : genPow e i ≠ 0x00 := by
  intro hzero
  have hsurj : Function.Surjective fun j : Fin 255 => (genPow e j).toFin := by
    intro y
    by_cases hy : BitVec.ofFin y = 0x00#8
    · exact ⟨⟨i, hi⟩, congrArg BitVec.toFin (hzero.trans hy.symm)⟩
    · obtain ⟨j, hj, hp⟩ := h (BitVec.ofFin y) hy
      exact ⟨⟨j, hj⟩, congrArg BitVec.toFin hp⟩
  have := Fintype.card_le_of_surjective _ hsurj
  simp at this

section
variable {s : State} {e : CatEntry} (h : FieldBuilt s e)
include h

/-- The built entry meets 00_scope.md R8. -/
theorem FieldBuilt.entry_wf : e.WF := catalogEntry_wf h.wf h.entry

/-- Entries 0..254 of ANTILOG are the powers of the generator. -/
theorem FieldBuilt.antilog_low {i : Nat} (hi : i < 255) : s.antilog.read i = genPow e i :=
  h.inv.built.antilogLow h.ready e h.entry i hi

/-- Entries 255..509 of ANTILOG repeat the powers. -/
theorem FieldBuilt.antilog_high {i : Nat} (hi : i < 255) : s.antilog.read (255 + i) = genPow e i :=
  h.inv.built.antilogHigh h.ready e h.entry i hi

/-- Every entry of ANTILOG a command can read is a power of the generator. -/
theorem FieldBuilt.antilog_read {i : Nat} (hi : i < 510) : s.antilog.read i = genPow e (i % 255) := by
  by_cases hlow : i < 255
  · rw [h.antilog_low hlow, Nat.mod_eq_of_lt hlow]
  · obtain ⟨j, rfl⟩ : ∃ j, i = 255 + j := ⟨i - 255, by omega⟩
    rw [h.antilog_high (by omega), Nat.add_mod_left, Nat.mod_eq_of_lt (by omega)]

/-- The log of a power is its exponent. -/
theorem FieldBuilt.log_genPow {i : Nat} (hi : i < 255) : s.log.read (genPow e i).toNat = BitVec.ofNat 8 i :=
  h.inv.built.log h.ready e h.entry h.entry_wf i hi

/-- A nonzero element is the power that its log says, and its log is below 255. -/
theorem FieldBuilt.exists_log {x : Byte} (hx : x ≠ 0x00) :
    ∃ i < 255, genPow e i = x ∧ s.log.read x.toNat = BitVec.ofNat 8 i := by
  obtain ⟨i, hi, rfl⟩ := h.entry_wf.primitive x hx
  exact ⟨i, hi, rfl, h.log_genPow hi⟩

/-- The log of a nonzero element is at most 254 (10_state.md R108). -/
theorem FieldBuilt.log_lt {x : Byte} (hx : x ≠ 0x00) : (s.log.read x.toNat).toNat < 255 := by
  obtain ⟨i, hi, -, hlog⟩ := h.exists_log hx
  rw [hlog, BitVec.toNat_ofNat]
  omega

/-- The antilog of the log of a nonzero element is that element. -/
theorem FieldBuilt.antilog_log {x : Byte} (hx : x ≠ 0x00) : s.antilog.read (s.log.read x.toNat).toNat = x := by
  obtain ⟨i, hi, hp, hlog⟩ := h.exists_log hx
  rw [hlog, BitVec.toNat_ofNat, Nat.mod_eq_of_lt (by omega), h.antilog_low hi, hp]

end

/-- A READY state of the invariant under R8 has a built field. -/
theorem State.Inv.fieldBuilt {s : State} (hinv : s.Inv) (hready : s.state = .ready) (hwf : s.config.WF) :
    ∃ e, FieldBuilt s e :=
  ⟨_, hinv, hready, hwf, catalogEntry_eq_some.2 ⟨hinv.registers.sel, rfl⟩⟩

/-- Settles O49, each table entry read as a power of the primitive generator. -/
theorem readyTablesAreInverse : Obligations.ReadyTablesAreInverse := by
  intro s hinv hready hwf
  obtain ⟨e, h⟩ := hinv.fieldBuilt hready hwf
  have hprim : PrimitiveGen e := h.entry_wf.primitive
  refine ⟨fun x hx => ?_, fun i hi => ?_, fun x hx => h.antilog_log hx, fun i hi => ?_⟩
  · obtain ⟨i, hi, hp⟩ := hprim x hx
    refine ⟨i, hi, by rw [h.antilog_low hi, hp], fun j hj hread => ?_⟩
    rw [h.antilog_low hj, ← hp] at hread
    exact genPow_injective hprim hj hi hread
  · rw [h.antilog_low hi]
    exact ⟨genPow_ne_zero hprim hi, h.log_genPow hi⟩
  · rw [Nat.add_comm, h.antilog_high hi, h.antilog_low hi]

end Sys2Proof.Machine
end

section
/-! PROOFS. Two engines with the same field, selector and parameters answer alike (10_state.md R110). -/
namespace Sys2Proof.Machine

/-! ## Agreement on what a command can read -/

/-- Two states agree on the registers, the parameters and every table entry a command can read: ANTILOG[0..509] and
LOG[1..255]. The pending response, BUSY, the inputs and the unused entries may differ. -/
structure ReadAlike (s u : State) : Prop where
  state : s.state = u.state
  sel : s.sel = u.sel
  faultCause : s.faultCause = u.faultCause
  faultCmd : s.faultCmd = u.faultCmd
  config : s.config = u.config
  antilog : ∀ i < 510, s.antilog.read i = u.antilog.read i
  log : ∀ x < 256, x ≠ 0 → s.log.read x = u.log.read x

/-- Two next states hold the same response and read alike. -/
structure SameResult (t v : State) : Prop where
  pending : t.pending = v.pending
  readAlike : ReadAlike t v

/-- Two outcomes are next states with the same result. -/
def SameOutcome (o p : Out) : Prop := ∃ t v, o = .next t ∧ p = .next v ∧ SameResult t v

/-- An index of LOG other than 0 is that of a nonzero byte. -/
theorem exists_byte_of_ne_zero {x : Nat} (hx : x < 256) (h0 : x ≠ 0) : ∃ b : Byte, b ≠ 0x00 ∧ b.toNat = x :=
  have hb : (BitVec.ofNat 8 x).toNat = x := Nat.mod_eq_of_lt hx
  ⟨BitVec.ofNat 8 x, fun h => h0 (hb.symm.trans (congrArg BitVec.toNat h)), hb⟩

/-- Without a fatal failure no cause is recorded (10_state.md R105). -/
theorem RegistersLegal.faultCause_of_not_fault {s : State} (h : RegistersLegal s) (hs : s.state ≠ .fault) :
    s.faultCause = .noCause :=
  not_not.1 fun hc => hs (h.cause.2 hc)

/-- READY is not FAULT. -/
theorem FieldBuilt.not_fault {s : State} {e : CatEntry} (h : FieldBuilt s e) : s.state ≠ .fault := by
  rw [h.ready]
  decide

/-- Two states of one built field, with the same selector and parameters, read alike. -/
theorem FieldBuilt.readAlike {s u : State} {e : CatEntry} (hs : FieldBuilt s e) (hu : FieldBuilt u e)
    (hsel : s.sel = u.sel) (hconfig : s.config = u.config) : ReadAlike s u where
  state := by rw [hs.ready, hu.ready]
  sel := hsel
  faultCause := by
    rw [hs.inv.registers.faultCause_of_not_fault hs.not_fault, hu.inv.registers.faultCause_of_not_fault hu.not_fault]
  faultCmd := by rw [hs.inv.registers.cmd hs.not_fault, hu.inv.registers.cmd hu.not_fault]
  config := hconfig
  antilog i hi := by rw [hs.antilog_read hi, hu.antilog_read hi]
  log x hx h0 := by
    obtain ⟨b, hb, rfl⟩ := exists_byte_of_ne_zero hx h0
    obtain ⟨i, hi, rfl, hlog⟩ := hs.exists_log hb
    rw [hlog, hu.log_genPow hi]

/-! ## Responses, fatal entry and BUILD keep the agreement -/

/-- A choice between results, by a condition on the operands. -/
theorem SameResult.ite {p : Prop} [Decidable p] {t t' v v' : State} (hpos : SameResult t v)
    (hneg : ¬ p → SameResult t' v') : SameResult (if p then t else t') (if p then v else v') := by
  by_cases hp : p
  · rw [if_pos hp, if_pos hp]; exact hpos
  · rw [if_neg hp, if_neg hp]; exact hneg hp

section
variable {s u : State} (h : ReadAlike s u)
include h

/-- Equal responses to states that read alike. -/
theorem ReadAlike.respond (st : Status) {d d' : Word} (hd : d = d') :
    SameResult (respond st d s) (respond st d' u) where
  pending := by rw [hd]; rfl
  readAlike := { h with }

/-- The same fatal failure outside FAULT. -/
theorem ReadAlike.raiseFatal (hs : s.state ≠ .fault) (c : FaultCause) (w : Word) :
    SameResult (raiseFatal c w s) (raiseFatal c w u) := by
  rw [raiseFatal_of_not_fault hs, raiseFatal_of_not_fault (h.state ▸ hs)]
  exact ⟨rfl, { h with state := rfl, faultCause := rfl, faultCmd := rfl }⟩

/-- A BUILD of one primitive entry on canonical tables. -/
theorem ReadAlike.buildField (hs : TablesCanonical s) (hu : TablesCanonical u) (k : Byte) {e : CatEntry}
    (he : PrimitiveGen e) : ReadAlike (buildField k e s) (buildField k e u) where
  state := by simp
  sel := by simp
  faultCause := by simp [h.faultCause]
  faultCmd := by simp [h.faultCmd]
  config := by simp [h.config]
  antilog i hi := by
    rw [buildField_antilog, buildField_antilog]
    by_cases hlow : i < 255
    · rw [builtAntilog_low e hs hlow, builtAntilog_low e hu hlow]
    · obtain ⟨j, rfl⟩ : ∃ j, i = 255 + j := ⟨i - 255, by omega⟩
      rw [builtAntilog_high e hs (by omega), builtAntilog_high e hu (by omega)]
  log x hx h0 := by
    obtain ⟨b, hb, rfl⟩ := exists_byte_of_ne_zero hx h0
    obtain ⟨i, hi, rfl⟩ := he b hb
    rw [buildField_log, buildField_log, builtLog_power he hs hi, builtLog_power he hu hi]

/-- A field operation in READY, from its results. -/
theorem ReadAlike.fieldOp (hs : s.state = .ready) (w : Word) {r r' : State} (hr : SameResult r r') :
    SameOutcome (fieldOp w s r) (fieldOp w u r') :=
  ⟨r, r', fieldOp_ready hs w r, fieldOp_ready (h.state ▸ hs) w r', hr⟩

/-- A catalog operation outside FAULT, from its results on the entry that the index selects in both. -/
theorem ReadAlike.catalogOp (hs : s.state ≠ .fault) (w : Word) (k : Byte) {r r' : CatEntry → State}
    (hr : ∀ e, catalogEntry s.config k = some e → SameResult (r e) (r' e)) :
    SameOutcome (catalogOp w k s r) (catalogOp w k u r') := by
  have hu : u.state ≠ .fault := h.state ▸ hs
  have hentry : catalogEntry u.config k = catalogEntry s.config k := by rw [h.config]
  cases he : catalogEntry s.config k with
  | some e => exact ⟨_, _, catalogOp_valid hs he w r, catalogOp_valid hu (hentry.trans he) w r', hr e he⟩
  | none =>
    exact ⟨_, _, catalogOp_invalid hs he w r, catalogOp_invalid hu (hentry.trans he) w r', h.raiseFatal hs _ w⟩

/-! ## The field operations' results -/

/-- The log of a nonzero element. -/
theorem ReadAlike.logOf {a : Byte} (ha : a ≠ 0x00) : logOf s a = logOf u a :=
  h.log a.toNat a.isLt fun h0 => ha (BitVec.eq_of_toNat_eq h0)

/-- DIV's result. -/
theorem ReadAlike.fieldDiv (a : Byte) {b : Byte} (hb : b ≠ 0x00) : fieldDiv s a b = fieldDiv u a b := by
  unfold Machine.fieldDiv
  split
  next => rfl
  next ha =>
    have hi (la lb : Byte) : divIndex la lb < 510 := by unfold divIndex; omega
    rw [h.logOf ha, h.logOf hb, h.antilog _ (hi _ _)]

/-- INV's result. -/
theorem ReadAlike.fieldInv {a : Byte} (ha : a ≠ 0x00) : fieldInv s a = fieldInv u a := by
  have hi (la : Byte) : invIndex la < 510 := by unfold invIndex; omega
  unfold Machine.fieldInv
  rw [h.logOf ha, h.antilog _ (hi _)]

/-- POW's result. -/
theorem ReadAlike.fieldPow (a : Byte) (n : Half) : fieldPow s a n = fieldPow u a n := by
  unfold Machine.fieldPow
  split
  next => rw [h.config]
  next ha =>
    have hi (la : Byte) : powIndex la n < 510 := by unfold powIndex; omega
    rw [h.logOf ha, h.antilog _ (hi _)]

/-- MUL's result: in a built field the sum of two logs is at most 508. -/
theorem ReadAlike.fieldMul {e : CatEntry} (hs : FieldBuilt s e) (a b : Byte) : fieldMul s a b = fieldMul u a b := by
  unfold Machine.fieldMul
  split
  next => rfl
  next hab =>
    obtain ⟨ha, hb⟩ := not_or.1 hab
    have hi : mulIndex (Machine.logOf s a) (Machine.logOf s b) < 510 := by
      have hla : (Machine.logOf s a).toNat < 255 := hs.log_lt ha
      have hlb : (Machine.logOf s b).toNat < 255 := hs.log_lt hb
      unfold mulIndex
      omega
    rw [h.antilog _ hi, h.logOf ha, h.logOf hb]

/-! ## Every command and every word -/

/-- Every command has the same outcome in two states of one built field that read alike. -/
theorem ReadAlike.exec {e : CatEntry} (hs : FieldBuilt s e) (hu : FieldBuilt u e) (i : Instr) :
    SameOutcome (exec i s) (exec i u) := by
  have hready : s.state = .ready := hs.ready
  have hnf : s.state ≠ .fault := hs.not_fault
  cases i with
  | build k =>
    refine h.catalogOp hnf _ k fun f hf => ReadAlike.respond ?_ .ok rfl
    exact h.buildField hs.inv.canonical hu.inv.canonical k (catalogEntry_wf hs.wf hf).primitive
  | add a b | sub a b => exact h.fieldOp hready _ (h.respond .ok rfl)
  | mul a b => exact h.fieldOp hready _ (h.respond .ok (by rw [h.fieldMul hs]))
  | div a b =>
    exact h.fieldOp hready _ (.ite (h.respond .divByZero rfl) fun hb => h.respond .ok (by rw [h.fieldDiv a hb]))
  | inv a =>
    exact h.fieldOp hready _ (.ite (h.respond .undefined rfl) fun ha => h.respond .ok (by rw [h.fieldInv ha]))
  | pow a n => exact h.fieldOp hready _ (h.respond .ok (by rw [h.fieldPow]))
  | log a =>
    exact h.fieldOp hready _ (.ite (h.respond .undefined rfl) fun ha => h.respond .ok (by rw [h.logOf ha]))
  | exp i => exact h.fieldOp hready _ (h.respond .ok (by rw [h.antilog i.toNat (by omega)]))
  | clmul | catval | catgen => exact h.catalogOp hnf _ _ fun f _ => h.respond .ok rfl
  | qsel => exact h.fieldOp hready _ (h.respond .ok (by rw [h.sel]))
  | qstat => exact ⟨_, _, rfl, rfl, h.respond .ok (by rw [statusData, statusData, h.state, h.sel, h.faultCause])⟩
  | qfcmd => exact ⟨_, _, rfl, rfl, h.respond .ok h.faultCmd⟩

/-- Every command word has the same outcome in two states of one built field that read alike. -/
theorem ReadAlike.runWord {e : CatEntry} (hs : FieldBuilt s e) (hu : FieldBuilt u e) (w : Word) :
    SameOutcome (runWord w s) (runWord w u) := by
  cases hd : decodeWord w with
  | ok i =>
    rw [runWord_of_ok hd, runWord_of_ok hd]
    exact h.exec hs hu i
  | error c =>
    rw [runWord_of_error hd, runWord_of_error hd, rejectWord_of_not_fault hs.not_fault,
      rejectWord_of_not_fault hu.not_fault]
    exact ⟨_, _, rfl, rfl, h.raiseFatal hs.not_fault _ w⟩

end

/-- Settles O52: two states of one built field read alike, and every word keeps that and is answered alike. -/
theorem responsesDependOnlyOnSelector : Obligations.ResponsesDependOnlyOnSelector := by
  intro s u hs hu hsr hur hsel hconfig hwf
  obtain ⟨e, hbs⟩ := hs.fieldBuilt hsr hwf
  have hbu : FieldBuilt u e := ⟨hu, hur, hconfig ▸ hwf, by rw [← hconfig, ← hsel]; exact hbs.entry⟩
  have h : ReadAlike s u := hbs.readAlike hbu hsel hconfig
  refine ⟨h.antilog, h.log, fun w => ?_⟩
  obtain ⟨t, v, ht, hv, hpending, hread⟩ := h.runWord hbs hbu w
  exact ⟨t, v, ht, hv, hpending, hread.state, hread.sel, hread.faultCause, hread.faultCmd, hread.antilog, hread.log⟩

end Sys2Proof.Machine
end

section
/-! PROOFS. Repeating a command changes nothing more (20_memory.md R208). -/
namespace Sys2Proof.Machine

/-! ## No command reads the pending response -/

section
variable (s : State) (p : Option Response)

/-- Fatal entry does not depend on the pending response. -/
theorem raiseFatal_setPending (c : FaultCause) (w : Word) : raiseFatal c w (s.setPending p) = raiseFatal c w s := by
  by_cases hs : s.state = .fault
  · rw [raiseFatal_of_fault hs, raiseFatal_of_fault (s := s.setPending p) hs]; rfl
  · rw [raiseFatal_of_not_fault hs, raiseFatal_of_not_fault (s := s.setPending p) hs]; rfl

/-- A field operation whose result does not depend on the pending response does not either. -/
theorem fieldOp_setPending (w : Word) (r : State) : fieldOp w (s.setPending p) r = fieldOp w s r := by
  cases hs : s.state with
  | empty => rw [fieldOp_empty hs, fieldOp_empty (s := s.setPending p) hs, raiseFatal_setPending]
  | ready => rw [fieldOp_ready hs, fieldOp_ready (s := s.setPending p) hs]
  | fault => rw [fieldOp_fault hs, fieldOp_fault (s := s.setPending p) hs]; rfl

/-- A catalog operation whose result does not depend on the pending response does not either. -/
theorem catalogOp_setPending (w : Word) (k : Byte) (r : CatEntry → State) :
    catalogOp w k (s.setPending p) r = catalogOp w k s r := by
  by_cases hs : s.state = .fault
  · rw [catalogOp_fault hs, catalogOp_fault (s := s.setPending p) hs]; rfl
  · cases he : catalogEntry s.config k with
    | some e => rw [catalogOp_valid hs he, catalogOp_valid (s := s.setPending p) hs he]
    | none => rw [catalogOp_invalid hs he, catalogOp_invalid (s := s.setPending p) hs he, raiseFatal_setPending]

/-- The tables BUILD writes do not depend on the pending response. -/
theorem respond_buildField_setPending (st : Status) (d : Word) (k : Byte) (e : CatEntry) :
    respond st d (buildField k e (s.setPending p)) = respond st d (buildField k e s) := by
  have ha : builtAntilog e (s.setPending p) = builtAntilog e s := by
    unfold builtAntilog
    rw [State.setPending_antilog, State.setPending_log]
  have hl : builtLog e (s.setPending p) = builtLog e s := by
    unfold builtLog
    rw [State.setPending_antilog, State.setPending_log]
  unfold buildField
  rw [ha, hl]
  rfl

/-- No command reads the pending response. -/
theorem exec_setPending (i : Instr) : exec i (s.setPending p) = exec i s := by
  cases i with
  | qstat | qfcmd => rfl
  | build k =>
    refine (catalogOp_setPending s p _ k _).trans ?_
    simp only [respond_buildField_setPending]
    rfl
  | clmul | catval | catgen => exact catalogOp_setPending s p _ _ _
  | _ => exact fieldOp_setPending s p _ _

/-- Nor does any command word, one that is rejected included. -/
theorem runWord_setPending (w : Word) : runWord w (s.setPending p) = runWord w s := by
  cases hd : decodeWord w with
  | ok i => rw [runWord_of_ok hd, runWord_of_ok hd, exec_setPending]
  | error e =>
    rw [runWord_of_error hd, runWord_of_error hd]
    by_cases hs : s.state = .fault
    · rw [rejectWord_of_fault hs, rejectWord_of_fault (s := s.setPending p) hs]; rfl
    · rw [rejectWord_of_not_fault hs, rejectWord_of_not_fault (s := s.setPending p) hs, raiseFatal_setPending]

end

/-! ## A second BUILD of the same entry -/

/-- Two walks of one entry leave the same log at an index, if the index is visited or held the same before. -/
theorem walk_log_read_eq (e : CatEntry) {al al' lg lg' : Memory} (ha : Memory.wf antilogSize al)
    (hl : Memory.wf logSize lg) (ha' : Memory.wf antilogSize al') (hl' : Memory.wf logSize lg') {n x : Nat}
    (hn : n ≤ antilogSize) (hx : (∀ i < n, (genPow e i).toNat ≠ x) → lg.read x = lg'.read x) :
    (walk e al lg n).log.read x = (walk e al' lg' n).log.read x := by
  induction n with
  | zero => exact hx fun i hi => absurd hi (Nat.not_lt_zero i)
  | succ n ih =>
    have hn' : n ≤ antilogSize := by omega
    rw [(walk_succ e al lg n).2, (walk_succ e al' lg' n).2]
    by_cases hvisit : (genPow e n).toNat = x
    · rw [hvisit, Memory.read_write_same (walk_wf e ha hl hn').2, Memory.read_write_same (walk_wf e ha' hl' hn').2]
    · rw [Memory.read_write_other (Ne.symm hvisit), Memory.read_write_other (Ne.symm hvisit)]
      refine ih hn' fun hfresh => hx fun i hi => ?_
      obtain hi | rfl := Nat.lt_succ_iff_lt_or_eq.1 hi
      · exact hfresh i hi
      · exact hvisit

/-- BUILD leaves the log of an element that no power of the generator is. -/
theorem builtLog_unvisited (e : CatEntry) {s : State} {x : Nat} (hx : ∀ i < 255, (genPow e i).toNat ≠ x) :
    (builtLog e s).read x = s.log.read x := by
  unfold builtLog
  exact walk_log_other e _ _ hx

section
variable {s : State} (h : TablesCanonical s) (k : Byte) (e : CatEntry)
include h

/-- A second BUILD writes ANTILOG as the first did. -/
theorem builtAntilog_buildField : builtAntilog e (buildField k e s) = builtAntilog e s := by
  have h' : TablesCanonical (buildField k e s) := buildField_canonical k e h
  refine Memory.eq_of_read (builtAntilog_wf e h') (builtAntilog_wf e h) fun i => ?_
  obtain hlow | ⟨j, hj, rfl⟩ | hunused : i < 255 ∨ (∃ j < 255, i = 255 + j) ∨ 510 ≤ i := by
    by_cases hi : 255 ≤ i ∧ i < 510
    · exact .inr (.inl ⟨i - 255, by omega, by omega⟩)
    · omega
  · rw [builtAntilog_low e h' hlow, builtAntilog_low e h hlow]
  · rw [builtAntilog_high e h' hj, builtAntilog_high e h hj]
  · rw [builtAntilog_unused e _ hunused, buildField_antilog]

/-- A second BUILD writes LOG as the first did, whether or not the generator is primitive. -/
theorem builtLog_buildField : builtLog e (buildField k e s) = builtLog e s := by
  have h' : TablesCanonical (buildField k e s) := buildField_canonical k e h
  refine Memory.eq_of_read (builtLog_wf e h') (builtLog_wf e h) fun x => ?_
  have hfresh (hx : ∀ i < 255, (genPow e i).toNat ≠ x) : (buildField k e s).log.read x = s.log.read x := by
    rw [buildField_log, builtLog_unvisited e hx]
  unfold builtLog
  exact walk_log_read_eq e h'.1 h'.2 h.1 h.2 (by decide) hfresh

/-- A second BUILD of the same entry changes nothing. -/
theorem buildField_buildField : buildField k e (buildField k e s) = buildField k e s := by
  rw [buildField, builtAntilog_buildField h, builtLog_buildField h]
  rfl

end

/-! ## A word answered FATAL -/

/-- QSTAT and QFCMD are never answered FATAL (60_exceptions.md R612). -/
theorem ne_query_of_fatal {i : Instr} {s t : State} {d : Word} (h : exec i s = .next t)
    (hfatal : t.pending = some ⟨.fatal, d⟩) : i ≠ .qstat ∧ i ≠ .qfcmd := by
  constructor <;> (rintro rfl; cases h; cases hfatal)

/-- A word answered FATAL leaves the engine in FAULT, as a refusal there would leave it. -/
theorem runWord_fatal {w : Word} {s t : State} {d : Word} (h : runWord w s = .next t)
    (hfatal : t.pending = some ⟨.fatal, d⟩) : t.state = .fault ∧ refuseInFault t = t := by
  cases runWord_cases h with
  | refused hs => exact ⟨hs, rfl⟩
  | fatal c _ hs => rw [raiseFatal_of_not_fault hs]; exact ⟨rfl, rfl⟩
  | built => cases hfatal
  | answered st _ hst => cases hfatal; exact absurd rfl hst

/-- A word answered FATAL in one state is refused in FAULT. -/
theorem runWord_refused_of_fatal {w : Word} {s t u : State} {d : Word} (h : runWord w s = .next t)
    (hfatal : t.pending = some ⟨.fatal, d⟩) (hu : u.state = .fault) : runWord w u = .next (refuseInFault u) := by
  cases hd : decodeWord w with
  | error e => rw [runWord_of_error hd, rejectWord_of_fault hu]
  | ok i =>
    rw [runWord_of_ok hd] at h ⊢
    obtain ⟨hstat, hfcmd⟩ := ne_query_of_fatal h hfatal
    exact exec_of_fault hu hstat hfcmd

/-- A command other than BUILD that is not answered FATAL only writes its response. -/
theorem exec_eq_setPending {i : Instr} {s t : State} {r : Response} (hi : ∀ k, i ≠ .build k) (h : exec i s = .next t)
    (hr : t.pending = some r) (hst : r.status ≠ .fatal) : t = s.setPending (some r) := by
  cases exec_cases h with
  | refused => cases hr; exact absurd rfl hst
  | notReady | invalidIndex => cases hr; exact absurd rfl hst
  | built k _ hb => exact absurd hb (hi k)
  | failed | answered => cases hr; rfl

/-- Settles O44: no command reads the pending response, a second BUILD writes what the first wrote, and a word answered FATAL is
refused in FAULT. -/
theorem commandsExceptBuildChangeNothing : Obligations.CommandsExceptBuildChangeNothing := by
  refine ⟨fun i s t r hi h hr hst => ?_, fun k s t hcanon hs hk h => ?_, fun w s t d h hfatal => ?_⟩
  · obtain rfl : t = s.setPending (some r) := exec_eq_setPending hi h hr hst
    exact ⟨rfl, (exec_setPending s none i).trans h⟩
  · obtain ⟨e, he⟩ : ∃ e, catalogEntry s.config k = some e := ⟨_, catalogEntry_eq_some.2 ⟨hk, rfl⟩⟩
    have hexec (u : State) (hu : u.state ≠ .fault) (hc : u.config = s.config) :
        exec (.build k) u = .next (respond .ok 0x00000000 (buildField k e u)) :=
      catalogOp_valid hu (hc ▸ he) _ _
    rw [hexec s hs rfl] at h
    cases h
    refine (exec_setPending (buildField k e s) none (.build k)).trans ?_
    rw [hexec _ (by simp) (by simp), buildField_buildField hcanon]
  · obtain ⟨hfault, hrefuse⟩ := runWord_fatal h hfatal
    refine (runWord_setPending t none w).trans ?_
    rw [runWord_refused_of_fatal h hfatal hfault, hrefuse]

end Sys2Proof.Machine
end

section
/-! PROOFS. Words as bytes (20_memory.md R202). -/
namespace Sys2Proof

/-- Settles O5: the sequence lists the four bytes in order, and put together they are the word. -/
theorem wordsAreLittleEndianBytes : Obligations.WordsAreLittleEndianBytes := by
  refine fun w => ⟨rfl, fun j hj => ?_, congrArg some (bytes_append w)⟩
  interval_cases j <;> rfl

end Sys2Proof
end

section
/-! PROOFS. The irreducible values and the generator 0x02 (20_memory.md R212, R213). -/
namespace Sys2Proof.Machine

/-- Each entry of `REF_CATALOG` meets 00_scope.md R8. -/
theorem wf_of_mem_reference {e : CatEntry} (he : e ∈ Config.reference.catalog.toList) : e.WF := by
  obtain ⟨k, hk, rfl⟩ := List.mem_iff_getElem.1 he
  exact reference_wf k (by simpa using hk)

/-! ## The 30 irreducible values -/

/-- The values of `REF_CATALOG`, in its order: the 30 that 20_memory.md R212 lists. -/
def referenceValues : List (BitVec 9) := Config.reference.catalog.toList.map CatEntry.value

/-- Each of the listed values is irreducible. -/
theorem irreducibleValue_of_mem_referenceValues {v : BitVec 9} (hv : v ∈ referenceValues) : IrreducibleValue v := by
  obtain ⟨e, he, rfl⟩ := List.mem_map.1 hv
  exact (wf_of_mem_reference he).irreducible

/-- The irreducible polynomials of degree 1 to 4; a reducible one of degree 8 has such a factor. -/
def smallIrreducibles : List Nat := [2, 3, 7, 11, 13, 19, 25, 31]

/-- Every other value with bit 8 set has a factor of degree 1 to 4. -/
theorem exists_factor_of_not_mem_referenceValues :
    ∀ v : BitVec 9, v.getLsbD 8 = true → v ∉ referenceValues → ∃ p ∈ smallIrreducibles, polyMod v.toNat p = 0 := by
  decide +kernel

/-- The irreducible values are the listed ones. -/
theorem irreducibleValue_iff_mem_referenceValues (v : BitVec 9) : IrreducibleValue v ↔ v ∈ referenceValues := by
  refine ⟨fun h => ?_, irreducibleValue_of_mem_referenceValues⟩
  obtain ⟨hmonic, hfactor⟩ := h
  by_contra hv
  obtain ⟨p, hp, hdvd⟩ := exists_factor_of_not_mem_referenceValues v hmonic hv
  have hrange : ∀ p ∈ smallIrreducibles, p < 256 ∧ 2 ≤ p := by decide
  exact hfactor p (hrange p hp).1 (hrange p hp).2 hdvd

/-- A catalog of 30 distinct irreducible values holds each of the listed ones. -/
theorem exists_catalog_value {c : Config} (hc : c.WF)
    (hinj : ∀ j k : Fin nCatalog, (c.catalog[j.val]'j.isLt).value = (c.catalog[k.val]'k.isLt).value → j = k)
    {v : BitVec 9} (hv : v ∈ referenceValues) : ∃ k : Fin nCatalog, (c.catalog[k.val]'k.isLt).value = v := by
  have hmaps (k : Fin nCatalog) : (c.catalog[k.val]'k.isLt).value ∈ referenceValues.toFinset :=
    List.mem_toFinset.2 ((irreducibleValue_iff_mem_referenceValues _).1 (hc k k.isLt).irreducible)
  have hcard : referenceValues.toFinset.card ≤ (Finset.univ : Finset (Fin nCatalog)).card :=
    (List.toFinset_card_le _).trans (by decide)
  obtain ⟨k, -, hk⟩ := Finset.surj_on_of_inj_on_of_card_le (s := Finset.univ) _ (fun k _ => hmaps k)
    (fun j k _ _ => hinj j k) hcard v (List.mem_toFinset.2 hv)
  exact ⟨k, hk.symm⟩

/-- Settles O55: the values of `REF_CATALOG` are irreducible, every other one has a factor of degree at most 4, and 30 distinct
irreducible values are all of them. -/
theorem irreducibleValuesAreTheThirty : Obligations.IrreducibleValuesAreTheThirty :=
  ⟨referenceValues, by decide, by decide, irreducibleValue_iff_mem_referenceValues,
    fun _ hc hinj _ hv => exists_catalog_value hc hinj hv⟩

/-! ## The generator 0x02 -/

/-- A generator whose powers return to 1 before the 255th is not primitive. -/
theorem not_primitiveGen_of_genPow_eq_one {e : CatEntry} {i : Nat} (h0 : i ≠ 0) (hi : i < 255)
    (h : genPow e i = 0x01) : ¬ PrimitiveGen e :=
  fun hprim => h0 (genPow_injective hprim hi (by decide) h)

/-- Settles O56: with the 16 values 0x02 is the generator of `REF_CATALOG`, which meets R8; under the 14 its powers return to 1
after 15, 51 or 85 steps, the maximal proper divisors of 255. -/
theorem fixedGeneratorFailsForFourteen : Obligations.FixedGeneratorFailsForFourteen := by
  refine ⟨fun v hv => ?_, fun v hv => ?_, by decide +kernel, by decide +kernel⟩
  · have hentry : ⟨v, 0x02⟩ ∈ Config.reference.catalog.toList := by revert v; decide +kernel
    exact (wf_of_mem_reference hentry).primitive
  · have hreturn : ∃ i ∈ [15, 51, 85], genPow ⟨v, 0x02⟩ i = 0x01 := by revert v; decide +kernel
    obtain ⟨i, hi, hone⟩ := hreturn
    have hproper : ∀ i ∈ [15, 51, 85], i ≠ 0 ∧ i < 255 := by decide
    obtain ⟨h0, hlt⟩ := hproper i hi
    exact not_primitiveGen_of_genPow_eq_one h0 hlt hone

end Sys2Proof.Machine
end

section
/-! PROOFS. The three classes of command words, and the decoder on encoded commands (30_encoding.md R303 to R313). -/
namespace Sys2Proof.Machine

/-! ## The opcode map -/

/-- Every opcode but `0x0` has a row, whose format checks the bits of the opcode table's mask. -/
theorem exists_opcodeRow {op : BitVec 4} (h : op ≠ 0x0) :
    ∃ f command, opcodeRow op = some (f, command) ∧ f.mask = tableMask op := by
  cases hrow : opcodeRow op with
  | none => exact absurd ((opcodeRow_eq_none op).1 hrow) h
  | some p =>
    refine ⟨p.1, p.2, rfl, ?_⟩
    unfold opcodeRow at hrow
    split at hrow <;> cases hrow <;> rfl

/-! ## The three classes of words -/

/-- A word is illegal exactly when its opcode is `0x0` (30_encoding.md R311). -/
theorem decodeWord_illegal_iff {w : Word} : decodeWord w = .error .illegalOpcode ↔ fieldOP w = 0x0 :=
  decodeWord_eq_illegal.trans (opcodeRow_eq_none _)

/-- An assigned opcode with a 1 in a zero bit is reserved (30_encoding.md R312). -/
theorem decodeWord_of_reservedBit {w : Word} (hop : fieldOP w ≠ 0x0) (h : HasReservedBit w) :
    decodeWord w = .error .reservedBits := by
  obtain ⟨f, command, hrow, hmask⟩ := exists_opcodeRow hop
  exact decodeWord_eq_reserved.2 ⟨f, command, hrow, hmask ▸ h⟩

/-- An assigned opcode with all its zero bits 0 is a command. -/
theorem exists_decodeWord_ok {w : Word} (hop : fieldOP w ≠ 0x0) (h : ¬ HasReservedBit w) : ∃ i, decodeWord w = .ok i := by
  obtain ⟨f, command, hrow, hmask⟩ := exists_opcodeRow hop
  exact ⟨command w, decodeWord_eq_ok.2 ⟨f, command, hrow, hmask ▸ not_not.1 h, rfl⟩⟩

/-- `RSV` of a word that decodes is 0: it is a zero field of every format. -/
theorem fieldRSV_of_decodeWord {w : Word} {i : Instr} (h : decodeWord w = .ok i) : fieldRSV w = 0x0 := by
  obtain ⟨f, command, -, hmask, -⟩ := decodeWord_eq_ok.1 h
  rw [← layout_fields hmask]
  exact Laws.OpcodeRow.fieldRSV_layout _ _ _ _

/-! ## The decoder on encoded commands -/

/-- The encoder puts a command's own opcode into its word. -/
theorem fieldOP_encode (i : Instr) : fieldOP (encode i) = Laws.OpcodeRow.opcode i := by
  cases i with
  | pow a n => exact (Laws.OpcodeRow.pow a n).1
  | _ => exact fieldOP_layout _ _ _ _

/-- `A` of a word of format P. -/
theorem fieldA_wordP (a : Byte) (n : Half) (op : BitVec 4) : fieldA (wordP a n op) = a := by
  rw [wordP_eq_layout, fieldA_layout]

/-- The word of a command decodes to it, format by format. -/
theorem decodeWord_encode (i : Instr) : decodeWord (encode i) = .ok i := by
  refine decodeWord_eq_ok.2 ?_
  rw [fieldOP_encode]
  cases i with
  | qsel | qstat | qfcmd => exact ⟨.N, _, rfl, by decide, rfl⟩
  | build | inv | log | exp | catval | catgen =>
    exact ⟨.U, _, rfl, layout_mask_U _ _, by simp [encode, wordU]⟩
  | add | sub | mul | div => exact ⟨.R, _, rfl, layout_mask_R _ _ _, by simp [encode, wordR]⟩
  | clmul => exact ⟨.T, _, rfl, layout_mask_T _ _ _ _, by simp [encode, wordT]⟩
  | pow a n =>
    refine ⟨.P, _, rfl, ?_, by simp [encode, fieldA_wordP, fieldN_wordP]⟩
    rw [encode, wordP_eq_layout]
    exact layout_mask_T _ _ _ _

/-- A command word with QSTAT's opcode is QSTAT. -/
theorem fieldOP_encode_eq_qstat {i : Instr} : fieldOP (encode i) = 0xE ↔ i = .qstat := by
  rw [fieldOP_encode]
  cases i <;> simp [Laws.OpcodeRow.opcode]

/-- A command word with QFCMD's opcode is QFCMD. -/
theorem fieldOP_encode_eq_qfcmd {i : Instr} : fieldOP (encode i) = 0xF ↔ i = .qfcmd := by
  rw [fieldOP_encode]
  cases i <;> simp [Laws.OpcodeRow.opcode]

end Sys2Proof.Machine
end

section
/-! PROOFS. The checks of an accepted word, in the order of 60_exceptions.md R620. -/
namespace Sys2Proof.Machine

/-! ## One lemma for each check -/

/-- Rejecting a word that is no command is `raise Fatal` in every state: in FAULT both only give a refusal. -/
theorem rejectWord_eq_raiseFatal (e : DecodeError) (w : Word) (s : State) :
    rejectWord e w s = raiseFatal (DecodeError.cause e) w s := by
  by_cases hs : s.state = .fault
  · rw [rejectWord_of_fault hs, raiseFatal_of_fault hs]
  · exact rejectWord_of_not_fault hs e w

/-- Check 1: in FAULT every word is refused whose opcode is neither QSTAT's nor QFCMD's. -/
theorem runWord_of_fault {w : Word} {s : State} (hs : s.state = .fault) (hstat : fieldOP w ≠ 0xE)
    (hfcmd : fieldOP w ≠ 0xF) : runWord w s = .next (refuseInFault s) := by
  cases hd : decodeWord w with
  | error e => rw [runWord_of_error hd, rejectWord_of_fault hs]
  | ok i =>
    obtain rfl := encode_of_decodeWord hd
    rw [runWord_of_ok hd]
    exact exec_of_fault hs (fun hi => hstat (fieldOP_encode_eq_qstat.2 hi)) (fun hi => hfcmd (fieldOP_encode_eq_qfcmd.2 hi))

/-- Check 2: an illegal opcode is fatal. -/
theorem runWord_of_illegal {w : Word} (h : fieldOP w = 0x0) (s : State) :
    runWord w s = .next (raiseFatal .illegalOpcode w s) := by
  rw [runWord_of_error (decodeWord_illegal_iff.2 h), rejectWord_eq_raiseFatal]
  rfl

/-- Check 3: a reserved bit is fatal. -/
theorem runWord_of_reservedBit {w : Word} (hop : fieldOP w ≠ 0x0) (h : HasReservedBit w) (s : State) :
    runWord w s = .next (raiseFatal .reservedBits w s) := by
  rw [runWord_of_error (decodeWord_of_reservedBit hop h), rejectWord_eq_raiseFatal]
  rfl

/-- Check 4: an invalid index is fatal outside FAULT (30_encoding.md R306). -/
theorem exec_of_invalidIndex {i : Instr} {k : Byte} {s : State} (hs : s.state ≠ .fault) (hi : indexOperand i = some k)
    (hk : nCatalog ≤ k.toNat) : exec i s = .next (raiseFatal .invalidIndex (encode i) s) := by
  obtain ⟨t, ht⟩ := exec_isNext i s
  cases exec_cases ht with
  | refused hf => exact absurd hf hs
  | invalidIndex => exact ht
  | notReady _ hn | failed _ _ _ hn => rw [needsReady_of_indexOperand hi] at hn; cases hn
  | built k' e hb _ he =>
    subst hb
    cases hi
    rw [catalogEntry_eq_none.2 hk] at he; cases he
  | answered _ _ _ _ hx =>
    obtain ⟨e, he⟩ := hx k hi
    rw [catalogEntry_eq_none.2 hk] at he; cases he

/-! ## The whole order -/

/-- An index that selects a catalog entry is valid. -/
theorem not_invalid_of_catalogEntry {c : Config} {i : Instr}
    (h : ∀ k, indexOperand i = some k → ∃ e, catalogEntry c k = some e) :
    ¬ ∃ k, indexOperand i = some k ∧ nCatalog ≤ k.toNat := by
  rintro ⟨k, hi, hk⟩
  obtain ⟨e, he⟩ := h k hi
  rw [catalogEntry_eq_none.2 hk] at he; cases he

/-- A command that needs READY has no catalog index. -/
theorem indexOperand_of_needsReady {i : Instr} (h : needsReady i = true) : indexOperand i = none :=
  Option.eq_none_iff_forall_ne_some.2 fun k hk => by
    rw [needsReady_of_indexOperand hk] at h; cases h

/-- A command that no check has stopped before, by the first of its own checks that applies (60_exceptions.md R620, checks 4 to
6, and success). -/
theorem exec_checks {i : Instr} {s t : State} (hf : s.state = .fault → i = .qstat ∨ i = .qfcmd) (h : exec i s = .next t) :
    if ∃ k, indexOperand i = some k ∧ nCatalog ≤ k.toNat then t = raiseFatal .invalidIndex (encode i) s
    else if needsReady i = true ∧ s.state = .empty then t = raiseFatal .notReady (encode i) s
    else match recoverableFailure i with
      | some status => t = { s with pending := some ⟨status, 0x00000000⟩ }
      | none => (∃ d, t.pending = some ⟨.ok, d⟩) ∧ t.faultCause = s.faultCause ∧ t.faultCmd = s.faultCmd := by
  cases exec_cases h with
  | refused hs hi =>
    obtain ⟨hstat, hfcmd⟩ := hi
    exact absurd (hf hs) (by simp [hstat, hfcmd])
  | invalidIndex k _ hi hk => rw [if_pos ⟨k, hi, catalogEntry_eq_none.1 hk⟩]
  | notReady hs hn => rw [if_neg (by simp [indexOperand_of_needsReady hn]), if_pos ⟨hn, hs⟩]
  | built k e hi _ he =>
    subst hi
    have hvalid := not_invalid_of_catalogEntry (c := s.config) (i := .build k) fun k' hk' => by cases hk'; exact ⟨e, he⟩
    rw [if_neg hvalid, if_neg (by simp [needsReady])]
    exact ⟨⟨_, rfl⟩, by simp, by simp⟩
  | failed st hs hr hn =>
    rw [if_neg (by simp [indexOperand_of_needsReady hn]), if_neg (by simp [hs]), hr]
    rfl
  | answered d _ hr hn hx =>
    rw [if_neg (not_invalid_of_catalogEntry hx), if_neg (fun ⟨hi, hs⟩ => by rw [hn hi] at hs; cases hs), hr]
    exact ⟨⟨d, rfl⟩, rfl, rfl⟩

/-- Every accepted word is answered, in every state. -/
theorem runWord_isAnswered (w : Word) (s : State) : ∃ t r, runWord w s = .next t ∧ t.pending = some r := by
  obtain ⟨t, ht⟩ : ∃ t, runWord w s = .next t := by
    cases hd : decodeWord w with
    | ok i => rw [runWord_of_ok hd]; exact exec_isNext i s
    | error e => exact ⟨_, runWord_of_error hd s⟩
  refine ⟨t, ?_⟩
  cases runWord_cases ht <;> exact ⟨_, ht, rfl⟩

/-- Settles O8, check by check. -/
theorem checksRunInPriorityOrder : Obligations.ChecksRunInPriorityOrder := by
  intro w s
  obtain ⟨t, -, ht, -⟩ := runWord_isAnswered w s
  refine ⟨t, ht, ?_⟩
  split_ifs with hfault hop hres
  · obtain ⟨hs, hstat, hfcmd⟩ := hfault
    rw [runWord_of_fault hs hstat hfcmd] at ht
    cases ht
    rfl
  · rw [runWord_of_illegal hop] at ht
    cases ht
    rfl
  · rw [runWord_of_reservedBit hop hres] at ht
    cases ht
    rfl
  · obtain ⟨i, hd⟩ := exists_decodeWord_ok hop hres
    obtain rfl := encode_of_decodeWord hd
    rw [runWord_of_ok hd] at ht
    refine ⟨i, hd, rfl, ht, exec_checks (fun hs => ?_) ht⟩
    rw [← fieldOP_encode_eq_qstat, ← fieldOP_encode_eq_qfcmd]
    tauto

/-! ## Illegal words, reserved bits and invalid indices -/

/-- Settles O3, by the three classes of words; no word goes unanswered. -/
theorem everyWordIsCommandIllegalOrReserved : Obligations.EveryWordIsCommandIllegalOrReserved := by
  refine fun w => ⟨decodeWord_illegal_iff.2, decodeWord_of_reservedBit, fun hop hres => ?_, runWord_isAnswered w⟩
  obtain ⟨i, hd⟩ := exists_decodeWord_ok hop hres
  exact ⟨i, hd, encode_of_decodeWord hd⟩

/-- Settles O9: `0x0` is the one opcode without a row, and its words are fatal. -/
theorem onlyOpcodeZeroIsIllegal : Obligations.OnlyOpcodeZeroIsIllegal := by
  refine ⟨fun _ => decodeWord_illegal_iff, fun w s hop hs => ?_, by decide⟩
  rw [runWord_of_illegal hop, raiseFatal_of_not_fault hs]
  rfl

/-- A malformed word of an assigned opcode is fatal outside FAULT. -/
theorem reservedBitsFatal {op : BitVec 4} (h : op ≠ 0x0) : ReservedBitsFatal op := by
  rintro w s rfl hres hs
  rw [runWord_of_reservedBit h hres, raiseFatal_of_not_fault hs]
  rfl

/-- Settles O10: without a reserved bit the word would decode, and then its `RSV` would be 0. -/
theorem reservedBitsAreFatal : Obligations.ReservedBitsAreFatal := by
  refine ⟨fun _ => reservedBitsFatal, fun w hop hrsv => by_contra fun hres => ?_⟩
  obtain ⟨i, hd⟩ := exists_decodeWord_ok hop hres
  exact hrsv (fieldRSV_of_decodeWord hd)

/-- Settles O26, from the decoder on encoded commands and the index check. -/
theorem invalidIndexIsFatal : Obligations.InvalidIndexIsFatal := by
  refine ⟨fun _ _ h => catalogEntry_eq_some.2 ⟨h, rfl⟩, fun i k s hi hk hs => ⟨decodeWord_encode i, ?_⟩⟩
  rw [RaisesFatal, exec_of_invalidIndex hs hi hk, raiseFatal_of_not_fault hs]

end Sys2Proof.Machine
end

section
/-! PROOFS. The ports' handshake: one step and one response for each accepted word (30_encoding.md R300, R321, R330, R331). -/
namespace Sys2Proof.Machine

/-! ## The ports -/

/-- When the engine is ready for a command. -/
theorem cmdReady_iff {x : HostInput} {s : State} :
    cmdReady x s = true ↔ x.rst ≠ .asserted ∧ s.busy = false ∧ s.pending = none := by
  simp [cmdReady, and_assoc]

/-- When the engine offers a response. -/
theorem rspValid_iff {x : HostInput} {s : State} :
    rspValid x s = true ↔ x.rst ≠ .asserted ∧ ∃ r, s.pending = some r := by
  simp [rspValid, Option.isSome_iff_exists]

/-- A pending response keeps the engine from being ready. -/
theorem cmdReady_of_pending {x : HostInput} {s : State} {r : Response} (h : s.pending = some r) : cmdReady x s = false := by
  simp [cmdReady, h]

/-- A sample with at most a response transfer changes nothing but the pending response and the samples to come. -/
theorem transferResponse_sameEngine (x : HostInput) (rest : List HostInput) (s : State) :
    SameEngine s (transferResponse x (s.setInputs rest)) := by
  unfold transferResponse
  split <;> constructor <;> rfl

/-- The response transfer keeps the samples still to come. -/
theorem transferResponse_inputs (x : HostInput) (s : State) : (transferResponse x s).inputs = s.inputs := by
  unfold transferResponse
  split <;> rfl

/-- Out of reset the pending response leaves exactly when the host takes it. -/
theorem transferResponse_pending {x : HostInput} (hr : x.rst = .released) (s : State) :
    (transferResponse x s).pending = if s.pending.isSome ∧ x.rspReady = true then none else s.pending := by
  unfold transferResponse rspValid
  by_cases h : s.pending.isSome = true ∧ x.rspReady = true
  · rw [if_pos h, if_pos (by simp [hr, h])]; rfl
  · rw [if_neg h, if_neg (by simpa [hr] using h)]

/-! ## One step -/

/-- With no sample the state holds. -/
theorem step_of_no_inputs {s : State} (h : s.inputs = []) : step s = .next s := by
  simp only [step, h]

/-- A step takes the oldest sample. -/
theorem step_of_inputs {s : State} {x : HostInput} {rest : List HostInput} (h : s.inputs = x :: rest) :
    step s = stepInput x (s.setInputs rest) := by
  simp only [step, h]

/-- A command offered when `cmd_ready` is 1 runs. -/
theorem step_accepted {s : State} {x : HostInput} {rest : List HostInput} {w : Word} (hin : s.inputs = x :: rest)
    (hr : x.rst = .released) (hw : x.cmd = some w) (hready : cmdReady x s = true) :
    step s = runWord w (s.setInputs rest) := by
  have hready' : cmdReady x (s.setInputs rest) = true := hready
  simp only [step_of_inputs hin, stepInput, hr, hw, hready', if_true]

/-- Without an accepted command at most the pending response transfers. -/
theorem stepInput_not_accepted {x : HostInput} {s : State} (hr : x.rst = .released)
    (h : x.cmd = none ∨ cmdReady x s = false) : stepInput x s = .next (transferResponse x s) := by
  cases hc : x.cmd with
  | none => simp only [stepInput, hr, hc]
  | some w =>
    have hready : cmdReady x s = false := h.resolve_left (by simp [hc])
    simp [stepInput, hr, hc, hready]

/-- The same of a step. -/
theorem step_not_accepted {s : State} {x : HostInput} {rest : List HostInput} (hin : s.inputs = x :: rest)
    (hr : x.rst = .released) (h : x.cmd = none ∨ cmdReady x s = false) :
    step s = .next (transferResponse x (s.setInputs rest)) :=
  (step_of_inputs hin).trans (stepInput_not_accepted hr h)

/-- A reset during a command that was not accepted finds nothing to cut short. -/
theorem cutShort_of_not_ready {x : HostInput} {s : State} (h : cmdReady x s = false) (n : Nat) : cutShort n x s = s := by
  unfold cutShort
  cases x.cmd <;> simp [h]

/-- An offer while `cmd_ready` is 0 has no effect. -/
theorem stepInput_drop_cmd {x : HostInput} {s : State} (h : cmdReady x s = false) :
    stepInput x s = stepInput { x with cmd := none } s := by
  obtain ⟨rst, cmd, rspReady⟩ := x
  cases rst with
  | asserted => rfl
  | duringCommand n => exact congrArg (fun u => (.next (applyReset u) : Out)) (cutShort_of_not_ready h n)
  | released => exact stepInput_not_accepted rfl (.inr h)

/-- Settles O11: readiness read off the ports' definition, and the response transfer under the invariant. -/
theorem commandAcceptedOnlyWhenReady : Obligations.CommandAcceptedOnlyWhenReady := by
  refine ⟨fun _ _ => cmdReady_iff, fun s x rest hin hready => ?_, fun s x rest r hinv hin hp hr htake => ?_⟩
  · rw [step_of_inputs hin, step_of_inputs (s := { s with inputs := { x with cmd := none } :: rest }) rfl]
    exact stepInput_drop_cmd hready
  · have hstep := step_not_accepted hin hr (.inr (cmdReady_of_pending hp))
    have hsame := transferResponse_sameEngine x rest s
    have hnone : (transferResponse x (s.setInputs rest)).pending = none := by
      rw [transferResponse_pending hr, if_pos (by simp [hp, htake])]
    exact ⟨_, hstep, hsame, hnone, fun y hy => cmdReady_iff.2 ⟨hy, hsame.busy.trans hinv.registers.busy, hnone⟩⟩

/-! ## The response of an accepted word -/

/-- An accepted word keeps the samples still to come. -/
theorem runWord_inputs {w : Word} {s t : State} (h : runWord w s = .next t) : t.inputs = s.inputs := by
  cases runWord_cases h with
  | refused | answered => rfl
  | fatal c _ hs => rw [raiseFatal_of_not_fault hs]
  | built => simp

/-- A word answered with a status other than OK and FATAL is a command with that recoverable failure (30_encoding.md R321). -/
theorem runWord_recoverable {w : Word} {s t : State} {r : Response} (h : runWord w s = .next t) (hr : t.pending = some r)
    (hok : r.status ≠ .ok) (hfatal : r.status ≠ .fatal) : ∃ i, w = encode i ∧ recoverableFailure i = some r.status := by
  cases hd : decodeWord w with
  | error e =>
    rw [runWord_of_error hd, rejectWord_eq_raiseFatal] at h
    cases h
    cases hr
    exact absurd rfl hfatal
  | ok i =>
    rw [runWord_of_ok hd] at h
    refine ⟨i, (encode_of_decodeWord hd).symm, ?_⟩
    cases exec_cases h with
    | refused | notReady | invalidIndex => cases hr; exact absurd rfl hfatal
    | built | answered => cases hr; exact absurd rfl hok
    | failed st _ hi => cases hr; exact hi

/-- UNDEFINED is the failure of LOG and INV of 0 only. -/
theorem recoverableFailure_eq_undefined {i : Instr} (h : recoverableFailure i = some .undefined) :
    i = .log 0x00 ∨ i = .inv 0x00 := by
  cases i <;> simp_all [recoverableFailure]

/-- DIV_BY_ZERO is the failure of DIV by 0 only. -/
theorem recoverableFailure_eq_divByZero {i : Instr} (h : recoverableFailure i = some .divByZero) :
    ∃ a, i = .div a 0x00 := by
  cases i <;> simp_all [recoverableFailure]

/-- What each status other than OK says of the word (30_encoding.md R321). -/
theorem runWord_status {w : Word} {s t : State} {r : Response} (h : runWord w s = .next t) (hr : t.pending = some r) :
    (r.status = .undefined → w = encode (.log 0x00) ∨ w = encode (.inv 0x00)) ∧
    (r.status = .divByZero → ∃ a : Byte, w = encode (.div a 0x00)) ∧
    (r.status = .fatal → t.state = .fault) := by
  refine ⟨fun hst => ?_, fun hst => ?_, fun hst => (runWord_fatal (d := r.data) h (by rw [hr, ← hst])).1⟩
  · obtain ⟨i, rfl, hi⟩ := runWord_recoverable h hr (by simp [hst]) (by simp [hst])
    exact (recoverableFailure_eq_undefined (hst ▸ hi)).imp (congrArg encode) (congrArg encode)
  · obtain ⟨i, rfl, hi⟩ := runWord_recoverable h hr (by simp [hst]) (by simp [hst])
    obtain ⟨a, rfl⟩ := recoverableFailure_eq_divByZero (hst ▸ hi)
    exact ⟨a, rfl⟩

/-- Out of reset the response port shows the pending response, its status by the codes of 30_encoding.md R321. -/
theorem rsp_of_pending {x : HostInput} {s : State} {r : Response} (hr : x.rst ≠ .asserted) (hp : s.pending = some r) :
    rspData x s = some r.data ∧ rspStatus x s = some r.status.code := by
  have hv : rspValid x s = true := rspValid_iff.2 ⟨hr, r, hp⟩
  simp [rspData, rspStatus, hv, hp]

/-- Settles O12: a released step accepts a word or not, and each accepted word is answered once. -/
theorem oneResponseForEachAcceptedCommand : Obligations.OneResponseForEachAcceptedCommand := by
  refine ⟨fun _ => step_of_no_inputs, fun s x rest hin hr => ?_, fun _ _ => rspValid_iff, fun x s r hr hp => ?_,
    fun _ _ _ _ => runWord_status⟩
  · by_cases h : x.cmd = none ∨ cmdReady x s = false
    · refine ⟨_, step_not_accepted hin hr h, transferResponse_inputs x _, fun w hw hready => ?_, fun _ =>
        ⟨transferResponse_sameEngine x rest s, transferResponse_pending hr _⟩⟩
      simp [hw, hready] at h
    · obtain ⟨hcmd, hready⟩ := not_or.1 h
      obtain ⟨w, hw⟩ := Option.ne_none_iff_exists'.1 hcmd
      have hready : cmdReady x s = true := by simpa using hready
      obtain ⟨-, -, hnone⟩ := cmdReady_iff.1 hready
      obtain ⟨t, r, ht, hp⟩ := runWord_isAnswered w (s.setInputs rest)
      refine ⟨t, (step_accepted hin hr hw hready).trans ht, runWord_inputs ht, fun w' hw' _ => ?_, fun h' => absurd h' h⟩
      obtain rfl : w = w' := Option.some.inj (hw.symm.trans hw')
      exact ⟨ht, hnone, r, hp⟩
  · obtain ⟨hdata, hstatus⟩ := rsp_of_pending hr hp
    refine ⟨hdata, hstatus.trans (congrArg some ?_)⟩
    cases r.status <;> rfl

end Sys2Proof.Machine
end

section
/-! PROOFS. The multiplier's algebra: `clmul8` is multiplication modulo `0x100 | m` (40_catalog_clmul.md R405), and its worked trace
(R407). -/
namespace Sys2Proof.Machine

/-! ## The ring laws, from the linearity of the loop -/

section
variable (m : Byte)

/-- The loop is linear in the multiplicand. -/
theorem clmulLoop_xor (a a' b : Byte) (k : Nat) :
    clmulLoop (a ^^^ a') b m k =
      ((clmulLoop a b m k).1 ^^^ (clmulLoop a' b m k).1, (clmulLoop a b m k).2 ^^^ (clmulLoop a' b m k).2) := by
  induction k with
  | zero => simp [clmulLoop]
  | succ k ih =>
    refine Prod.ext ?_ ?_
    · simp only [clmulLoop_acc, ih]
      cases b.getLsbD k
      · rfl
      · simp only [if_true]; ac_rfl
    · simp only [clmulLoop_x, ih, timesX_xor]

/-- Multiplication distributes over XOR in the first operand. -/
theorem xor_clmul8 (a a' b : Byte) : clmul8 (a ^^^ a') b m = clmul8 a b m ^^^ clmul8 a' b m :=
  congrArg Prod.fst (clmulLoop_xor m a a' b 8)

/-- 0 times anything is 0. -/
theorem zero_clmul8 (b : Byte) : clmul8 0x00 b m = 0x00 := by
  simpa using xor_clmul8 m 0x00 0x00 b

/-- A linear map that commutes with the shift commutes with multiplication by a fixed `b`: the loop is made of shifts and sums. -/
theorem map_clmul8 {f : Byte → Byte} (hxor : ∀ x y, f (x ^^^ y) = f x ^^^ f y)
    (hshift : ∀ x, f (timesX x m) = timesX (f x) m) (a b : Byte) : f (clmul8 a b m) = clmul8 (f a) b m := by
  have hzero : f 0x00 = 0x00 := by simpa using hxor 0x00 0x00
  have hx (k : Nat) : f (clmulLoop a b m k).2 = (clmulLoop (f a) b m k).2 := by
    induction k with
    | zero => rfl
    | succ k ih => rw [clmulLoop_x, clmulLoop_x, hshift, ih]
  have hacc (k : Nat) : f (clmulLoop a b m k).1 = (clmulLoop (f a) b m k).1 := by
    induction k with
    | zero => exact hzero
    | succ k ih => rw [clmulLoop_acc, clmulLoop_acc, apply_ite f, hxor, ih, hx]
  exact hacc 8

/-- The second and the third factor can be exchanged: multiplication by `c` is linear and commutes with the shift. -/
theorem clmul8_right_comm (a b c : Byte) : clmul8 (clmul8 a b m) c m = clmul8 (clmul8 a c m) b m :=
  have hshift (x : Byte) : clmul8 (timesX x m) c m = timesX (clmul8 x c m) m :=
    (map_clmul8 m (f := (timesX · m)) (fun y z => timesX_xor y z m) (fun _ => rfl) x c).symm
  map_clmul8 m (f := (clmul8 · c m)) (fun x y => xor_clmul8 m x y c) hshift a b

/-- The multiplicand 1, shifted `k` times, is still below the modulus. -/
theorem clmulLoop_one_x (b : Byte) {k : Nat} (hk : k < 8) : (clmulLoop 0x01 b m k).2 = BitVec.twoPow 8 k := by
  induction k with
  | zero => rfl
  | succ k ih =>
    have hlow : (BitVec.twoPow 8 k).getLsbD 7 = false := by
      rw [BitVec.getLsbD_twoPow]; simp; omega
    rw [clmulLoop_x, ih (by omega), timesX, hlow, if_neg (by decide), BitVec.twoPow_eq, BitVec.twoPow_eq,
      ← BitVec.shiftLeft_add]

/-- With multiplicand 1 the accumulator collects the bits of the multiplier. -/
theorem clmulLoop_one_acc (b : Byte) {k : Nat} (hk : k ≤ 8) (i : Nat) :
    (clmulLoop 0x01 b m k).1.getLsbD i = (decide (i < k) && b.getLsbD i) := by
  induction k with
  | zero => simp [clmulLoop]
  | succ k ih =>
    rw [clmulLoop_acc, clmulLoop_one_x m b hk, apply_ite (BitVec.getLsbD · i), BitVec.getLsbD_xor, ih (by omega),
      BitVec.getLsbD_twoPow]
    obtain hi | rfl | hi := Nat.lt_trichotomy i k
    · simp [hi, Nat.lt_succ_of_lt hi, hi.ne']
    · cases b.getLsbD i <;> simp [Nat.lt_of_succ_le hk]
    · simp [hi.ne, Nat.not_lt.2 hi.le, Nat.not_lt.2 (Nat.succ_le_of_lt hi)]

/-- 1 times `b` is `b`. -/
theorem one_clmul8 (b : Byte) : clmul8 0x01 b m = b :=
  BitVec.eq_of_getLsbD_eq fun i hi => by
    rw [clmul8, clmulLoop_one_acc m b (le_refl 8)]; simp [hi]

/-- Multiplication is commutative. -/
theorem clmul8_comm (a b : Byte) : clmul8 a b m = clmul8 b a m := by
  simpa only [one_clmul8] using clmul8_right_comm m 0x01 a b

/-- Multiplication is associative. -/
theorem clmul8_assoc (a b c : Byte) : clmul8 (clmul8 a b m) c m = clmul8 a (clmul8 b c m) m := by
  rw [clmul8_comm m a b, clmul8_right_comm, clmul8_comm m _ a]

/-- Anything times 0 is 0. -/
theorem clmul8_zero (a : Byte) : clmul8 a 0x00 m = 0x00 := by rw [clmul8_comm, zero_clmul8]

/-- `a` times 1 is `a`. -/
theorem clmul8_one (a : Byte) : clmul8 a 0x01 m = a := by rw [clmul8_comm, one_clmul8]

/-- Multiplication distributes over XOR in the second operand. -/
theorem clmul8_xor (a b c : Byte) : clmul8 a (b ^^^ c) m = clmul8 a b m ^^^ clmul8 a c m := by
  rw [clmul8_comm, xor_clmul8, clmul8_comm m b, clmul8_comm m c]

end

/-! ## The product by long division -/

/-- One step of long division: the highest bit is cleared by adding a shift of the divisor. -/
theorem polyModFrom_succ (p d n v : Nat) :
    polyModFrom p d (n + 1) v = polyModFrom p d n (if v.testBit (n + d) then v ^^^ p <<< n else v) := rfl

/-- Long division is linear: the shifts added to two dividends are those added to their sum. -/
theorem polyModFrom_xor (p d n v w : Nat) :
    polyModFrom p d n (v ^^^ w) = polyModFrom p d n v ^^^ polyModFrom p d n w := by
  induction n generalizing v w with
  | zero => rfl
  | succ n ih =>
    rw [polyModFrom_succ, polyModFrom_succ, polyModFrom_succ, ← ih, Nat.testBit_xor]
    congr 1
    cases v.testBit (n + d) <;> cases w.testBit (n + d)
    · rfl
    · exact Nat.xor_assoc _ _ _
    · exact Nat.xor_right_comm _ _ _
    · have hcancel : (v ^^^ p <<< n) ^^^ (w ^^^ p <<< n) = v ^^^ w := by
        rw [← Nat.xor_assoc, Nat.xor_right_comm v, Nat.xor_xor_cancel_right]
      exact hcancel.symm

/-- Dividing `x · v` is dividing `v`, then one more step on `x` times the remainder. -/
theorem polyModFrom_shiftLeft_one (p d n v : Nat) :
    polyModFrom p d (n + 1) (v <<< 1) = polyModFrom p d 1 (polyModFrom p d n v <<< 1) := by
  induction n generalizing v with
  | zero => rfl
  | succ n ih =>
    have hbit : (v <<< 1).testBit (n + 1 + d) = v.testBit (n + d) := by
      rw [Nat.add_right_comm, Nat.testBit_shiftLeft]; simp
    rw [polyModFrom_succ, hbit, polyModFrom_succ p d n v, ← ih, apply_ite (· <<< 1), Nat.shiftLeft_xor_distrib,
      ← Nat.shiftLeft_add]

/-- The division skips the bits above the dividend. -/
theorem polyModFrom_of_lt {p d k n v : Nat} (hv : v < 2 ^ (k + d)) (hk : k ≤ n) :
    polyModFrom p d n v = polyModFrom p d k v := by
  induction n, hk using Nat.le_induction with
  | base => rfl
  | succ n hk ih =>
    have hbit : v.testBit (n + d) = false :=
      Nat.testBit_lt_two_pow (hv.trans_le (Nat.pow_le_pow_right (by omega) (by omega)))
    rw [polyModFrom_succ, hbit, if_neg (by decide), ih]

/-- A shift of the multiplicand is one step of the division by `0x100 | m`. -/
theorem toNat_timesX (x m : Byte) : (timesX x m).toNat = polyModFrom (256 + m.toNat) 8 1 (x.toNat <<< 1) := by
  have hbit : (x.toNat <<< 1).testBit (0 + 8) = x.getLsbD 7 := by
    rw [Nat.testBit_shiftLeft, BitVec.getLsbD]; rfl
  have htop : x.getLsbD 7 = decide (128 ≤ x.toNat) := BitVec.msb_eq_decide x
  rw [timesX, polyModFrom_succ, polyModFrom, hbit, htop, Nat.shiftLeft_zero]
  by_cases hx : 128 ≤ x.toNat
  · have hdiv : (x.toNat <<< 1 ^^^ (256 + m.toNat)) / 2 ^ 8 = 0 := by
      have hu : x.toNat <<< 1 / 2 ^ 8 = 1 := by rw [Nat.shiftLeft_eq]; omega
      have hp : (256 + m.toNat) / 2 ^ 8 = 1 := by omega
      rw [Nat.xor_div_two_pow, hu, hp, Nat.xor_self]
    rw [decide_eq_true hx, if_pos rfl, if_pos rfl, BitVec.toNat_xor, BitVec.toNat_shiftLeft,
      ← Nat.mod_add_div (_ ^^^ (256 + _)) (2 ^ 8), hdiv, Nat.xor_mod_two_pow, Nat.add_mod_left, Nat.mod_eq_of_lt m.isLt]
    rfl
  · rw [decide_eq_false hx, if_neg (by decide), if_neg (by decide), BitVec.toNat_shiftLeft, Nat.shiftLeft_eq]
    omega

/-- The multiplicand after `k` iterations is `a · x^k` modulo `0x100 | m`. -/
theorem toNat_clmulLoop_x (a b m : Byte) (k : Nat) :
    (clmulLoop a b m k).2.toNat = polyModFrom (256 + m.toNat) 8 k (a.toNat <<< k) := by
  induction k with
  | zero => rfl
  | succ k ih => rw [clmulLoop_x, toNat_timesX, ih, ← polyModFrom_shiftLeft_one, ← Nat.shiftLeft_add]

/-- The accumulator after `k` iterations is the product of `a` and the low `k` bits of `b`, modulo `0x100 | m`. -/
theorem toNat_clmulLoop_acc (a b m : Byte) {k : Nat} (hk : k ≤ 8) :
    (clmulLoop a b m k).1.toNat = polyModFrom (256 + m.toNat) 8 7 (polyMul a.toNat b.toNat k) := by
  have hzero : polyModFrom (256 + m.toNat) 8 7 0 = 0 := by
    rw [polyModFrom_of_lt (k := 0) (by decide) (by decide)]; rfl
  induction k with
  | zero => exact hzero.symm
  | succ k ih =>
    have hx : (clmulLoop a b m k).2.toNat = polyModFrom (256 + m.toNat) 8 7 (a.toNat <<< k) := by
      have ha : a.toNat <<< k < 2 ^ (k + 8) := by
        rw [Nat.shiftLeft_eq, Nat.pow_add, Nat.mul_comm]
        exact Nat.mul_lt_mul_of_pos_left a.isLt (by positivity)
      rw [toNat_clmulLoop_x, polyModFrom_of_lt (n := 7) ha (by omega)]
    rw [clmulLoop_acc, polyMul, polyModFrom_xor, ← ih (by omega), BitVec.getLsbD]
    split
    · rw [BitVec.toNat_xor, hx]
    · rw [hzero, Nat.xor_zero]

/-! ## Inverses -/

/-- A product of two products, the middle factors exchanged. -/
theorem clmul8_clmul8_clmul8_comm (a b c d m : Byte) :
    clmul8 (clmul8 a b m) (clmul8 c d m) m = clmul8 (clmul8 a c m) (clmul8 b d m) m := by
  rw [← clmul8_assoc, clmul8_right_comm m a b c, clmul8_assoc]

/-- A primitive generator has an inverse: if it is not 1, `1 + gen` is a power `gen^(i+1)`, so `1 = gen · (1 + gen^i)`. -/
theorem exists_gen_inverse {e : CatEntry} (h : PrimitiveGen e) : ∃ b, clmul8 e.gen b e.low = 0x01 := by
  by_cases hsum : 0x01 ^^^ e.gen = 0x00
  · exact ⟨0x01, by rw [clmul8_one, ← BitVec.xor_eq_zero_iff.1 hsum]⟩
  · obtain ⟨i, -, hi⟩ := h _ hsum
    cases i with
    | zero =>
      have hgen : e.gen = genPow e 1 := (one_clmul8 _ _).symm
      have hzero : e.gen = 0x00 := (BitVec.xor_right_inj 0x01).1 hi.symm
      exact absurd (hgen.symm.trans hzero) (genPow_ne_zero h (by decide))
    | succ i =>
      refine ⟨0x01 ^^^ genPow e i, ?_⟩
      calc clmul8 e.gen (0x01 ^^^ genPow e i) e.low
        _ = e.gen ^^^ genPow e (i + 1) := by rw [clmul8_xor, clmul8_one, clmul8_comm]; rfl
        _ = 0x01 := by rw [hi, BitVec.xor_comm 0x01, ← BitVec.xor_assoc, BitVec.xor_self]; rfl

/-- Under a primitive generator every nonzero element has an inverse, since the product of two elements with an inverse has one. -/
theorem exists_inverse_of_primitiveGen {e : CatEntry} (h : PrimitiveGen e) {a : Byte} (ha : a ≠ 0x00) :
    ∃ b, clmul8 a b e.low = 0x01 := by
  obtain ⟨g, hg⟩ := exists_gen_inverse h
  have hpow (i : Nat) : ∃ b, clmul8 (genPow e i) b e.low = 0x01 := by
    induction i with
    | zero => exact ⟨0x01, one_clmul8 _ _⟩
    | succ i ih =>
      obtain ⟨b, hb⟩ := ih
      exact ⟨clmul8 b g e.low, by rw [genPow, clmul8_clmul8_clmul8_comm, hb, hg, one_clmul8]⟩
  obtain ⟨i, -, rfl⟩ := h a ha
  exact hpow i

/-- Two inverses of one element are equal. -/
theorem clmul8_inverse_unique {a b c m : Byte} (hb : clmul8 a b m = 0x01) (hc : clmul8 a c m = 0x01) : c = b := by
  calc c = clmul8 (clmul8 a b m) c m := by rw [hb, one_clmul8]
    _ = clmul8 (clmul8 a c m) b m := clmul8_right_comm m a b c
    _ = b := by rw [hc, one_clmul8]

/-- The `m` of `clmul8` is bits 7..0 of the entry's value. -/
theorem low_eq_extractLsb' (e : CatEntry) : e.low = e.value.extractLsb' 0 8 := BitVec.setWidth_eq_extractLsb' (by decide)

/-- For an irreducible modulus every nonzero element has an inverse: the value is one of `REF_CATALOG`, whose generator for it is
primitive. -/
theorem exists_inverse_of_irreducibleValue {v : BitVec 9} (hv : IrreducibleValue v) {a : Byte} (ha : a ≠ 0x00) :
    ∃ b, clmul8 a b (v.extractLsb' 0 8) = 0x01 := by
  obtain ⟨e, he, rfl⟩ := List.mem_map.1 ((irreducibleValue_iff_mem_referenceValues v).1 hv)
  rw [← low_eq_extractLsb']
  exact exists_inverse_of_primitiveGen (wf_of_mem_reference he).primitive ha

/-- Settles O53: the ring laws from the loop's linearity, the product step by step of the long division, and inverses as powers of
a primitive generator. -/
theorem clmulIsPolynomialProduct : Obligations.ClmulIsPolynomialProduct := by
  refine ⟨fun a b m k _ => toNat_clmulLoop_x a b m k, fun a b m => toNat_clmulLoop_acc a b m (le_refl 8),
    fun a m => ⟨clmul8_zero m a, zero_clmul8 m a, clmul8_one m a, one_clmul8 m a⟩, fun a b m => clmul8_comm m a b,
    fun a b c m => clmul8_assoc m a b c, fun a b c m => clmul8_xor m a b c, fun v hv a ha => ?_⟩
  obtain ⟨b, hb⟩ := exists_inverse_of_irreducibleValue hv ha
  exact ⟨b, hb, fun c hc => clmul8_inverse_unique hb hc⟩

/-- Settles O54, by running the loop. -/
theorem multiplierTrace : Obligations.MultiplierTrace := ⟨by decide, by decide⟩

end Sys2Proof.Machine
end

section
/-! PROOFS. The catalog operations: CLMUL, CATVAL and CATGEN (40_catalog_clmul.md R400, R402 to R404). -/
namespace Sys2Proof.Machine

/-- No command has opcode `0x0`: its word decodes. -/
theorem fieldOP_encode_ne_zero (i : Instr) : fieldOP (encode i) ≠ 0x0 := fun h => by
  have hillegal := decodeWord_illegal_iff.2 h
  rw [decodeWord_encode] at hillegal
  cases hillegal

/-- What every command with a catalog index does in FAULT, on an invalid index and when malformed. -/
theorem catalogCommand {i : Instr} {k : Byte} {word : Word} (hi : indexOperand i = some k) (hword : encode i = word) :
    CatalogCommand i word k where
  encoding := hword
  invalid s hs hk := (invalidIndexIsFatal.2 i k s hi hk hs).2
  inFault s hs := exec_of_fault hs (by rintro rfl; cases hi) (by rintro rfl; cases hi)
  malformed := reservedBitsFatal (hword ▸ fieldOP_encode_ne_zero i)

section
variable {s : State} {k : Byte} {e : CatEntry} (hs : s.state ≠ .fault) (he : catalogEntry s.config k = some e)
include hs he

/-- CLMUL outside FAULT with a valid index. -/
theorem answers_clmul (a b : Byte) : Answers (.clmul a b k) s .ok (zext32 (clmul8 a b (e.value.extractLsb' 0 8))) := by
  rw [← low_eq_extractLsb']
  exact catalogOp_valid hs he _ _

/-- CATVAL outside FAULT with a valid index. -/
theorem answers_catval : Answers (.catval k) s .ok (zext32 e.value) := catalogOp_valid hs he _ _

/-- CATGEN outside FAULT with a valid index. -/
theorem answers_catgen : Answers (.catgen k) s .ok (zext32 e.gen) := catalogOp_valid hs he _ _

end

/-- Settles O36: the corner cases are laws of the multiplier, and the example is the worked trace. -/
theorem clmulMultipliesModuloEntry : Obligations.ClmulMultipliesModuloEntry := by
  refine fun a b k => ⟨catalogCommand rfl rfl, fun s e hs he => ?_⟩
  have h (a b : Byte) := answers_clmul hs he a b
  refine ⟨h a b, ?_, ?_, ?_, fun hv => ?_⟩
  · have hzero := h 0x00 b
    rwa [zero_clmul8] at hzero
  · have hzero := h a 0x00
    rwa [clmul8_zero] at hzero
  · have hone := h a 0x01
    rwa [clmul8_one] at hone
  · have htrace : clmul8 0x53 0xCA ((0x11b : BitVec 9).extractLsb' 0 8) = 0x01 := multiplierTrace.2
    have hexample := h 0x53 0xCA
    rwa [hv, htrace] at hexample

/-- The data of CATVAL has nine bits. -/
theorem zext32_value_high (v : BitVec 9) : (zext32 v).extractLsb' 9 23 = 0 := by
  refine BitVec.eq_of_getLsbD_eq fun i hi => ?_
  rw [zext32, BitVec.getLsbD_extractLsb', BitVec.getLsbD_setWidth, BitVec.getLsbD_of_ge v _ (by omega)]
  simp

/-- Bit 8 of the data of CATVAL is bit 8 of the value. -/
theorem zext32_value_bit8 (v : BitVec 9) : (zext32 v).getLsbD 8 = v.getLsbD 8 := BitVec.getLsbD_setWidth _ _ _

/-- Settles O37, from the entry's value under R8. -/
theorem catvalReadsValue : Obligations.CatvalReadsValue := by
  refine fun k => ⟨catalogCommand rfl rfl, fun s e hs he => ?_⟩
  have h := answers_catval hs he
  refine ⟨h, zext32_value_high _, fun hwf => ?_, fun hv => ?_⟩
  · rw [zext32_value_bit8]
    exact (catalogEntry_wf hwf he).monic
  · rwa [hv] at h

/-- Settles O38, from the entry's generator under R8; 30 is the first invalid index. -/
theorem catgenReadsGenerator : Obligations.CatgenReadsGenerator := by
  refine ⟨fun k => ⟨catalogCommand rfl rfl, fun s e hs he => ⟨answers_catgen hs he, fun hwf => ?_⟩⟩, fun s hs => ?_⟩
  · have hentry : e.WF := catalogEntry_wf hwf he
    exact ⟨hentry.gen_ne_zero, hentry.primitive⟩
  · exact ⟨_, (catalogCommand rfl rfl).invalid s hs (k := 30) (by decide), rfl⟩

end Sys2Proof.Machine
end

section
/-! PROOFS. BUILD, whole: the tables it constructs and a BUILD of the field already built (41_build.md R421, R424). -/
namespace Sys2Proof.Machine

/-! ## The cycle of a primitive generator's powers -/

/-- A primitive generator has an inverse, so it cancels. -/
theorem clmul8_gen_cancel {e : CatEntry} (h : PrimitiveGen e) {a b : Byte}
    (hab : clmul8 a e.gen e.low = clmul8 b e.gen e.low) : a = b := by
  obtain ⟨g, hg⟩ := exists_gen_inverse h
  have hundo (c : Byte) : clmul8 (clmul8 c e.gen e.low) g e.low = c := by rw [clmul8_assoc, hg, clmul8_one]
  rw [← hundo a, hab, hundo]

/-- Power 255 of a primitive generator is 1: it is a power below 255, and no power but the first, since from `gen^255 = gen^(j+1)`
follows `gen^254 = gen^j`. -/
theorem genPow_255 {e : CatEntry} (h : PrimitiveGen e) : genPow e 255 = 0x01 := by
  have hne : genPow e 255 ≠ 0x00 := fun hzero =>
    genPow_ne_zero h (by decide : 254 < 255) (clmul8_gen_cancel h (hzero.trans (zero_clmul8 _ _).symm))
  obtain ⟨i, hi, hp⟩ := h _ hne
  cases i with
  | zero => exact hp.symm
  | succ j =>
    have hj : j = 254 := genPow_injective h (by omega) (by decide) (clmul8_gen_cancel h hp)
    omega

/-! ## The tables of a BUILD -/

section
variable {s : State} (h : TablesCanonical s) (e : CatEntry)
include h

/-- Every entry of ANTILOG that BUILD writes is a power of the generator. -/
theorem builtAntilog_read {i : Nat} (hi : i < 510) : (builtAntilog e s).read i = genPow e (i % 255) := by
  by_cases hlow : i < 255
  · rw [builtAntilog_low e h hlow, Nat.mod_eq_of_lt hlow]
  · obtain ⟨j, rfl⟩ : ∃ j, i = 255 + j := ⟨i - 255, by omega⟩
    rw [builtAntilog_high e h (by omega), Nat.add_mod_left, Nat.mod_eq_of_lt (by omega)]

/-- The log of a power is the last exponent of the walk that gives it, for any generator. -/
theorem builtLog_last {i : Nat} (hi : i < 255) (hlast : ∀ j, i < j → j < 255 → genPow e j ≠ genPow e i) :
    (builtLog e s).read (genPow e i).toNat = BitVec.ofNat 8 i := by
  unfold builtLog
  exact walk_log_last e h.1 h.2 (by decide) hi hlast

end

/-- BUILD outside FAULT with a valid index. -/
theorem exec_build_valid {s : State} {k : Byte} {e : CatEntry} (hs : s.state ≠ .fault)
    (he : catalogEntry s.config k = some e) :
    exec (.build k) s = .next (respond .ok 0x00000000 (buildField k e s)) :=
  catalogOp_valid hs he _ _

/-- Settles O39: the registers and the frame of `buildField`, its tables entry by entry, and the cycle of the powers under R8. -/
theorem buildConstructsTables : Obligations.BuildConstructsTables := by
  refine ⟨fun k => catalogCommand rfl rfl, fun k s e hs hcanon he => ?_, fun e hwf => ?_, by decide⟩
  · refine ⟨_, exec_build_valid hs he, ?_⟩
    simp only [respond_pending, respond_state, respond_sel, respond_busy, respond_faultCause, respond_faultCmd,
      respond_inputs, respond_config, respond_antilog, respond_log, buildField_state, buildField_sel, buildField_busy,
      buildField_faultCause, buildField_faultCmd, buildField_inputs, buildField_config, buildField_antilog,
      buildField_log, true_and]
    refine ⟨fun i hi => builtAntilog_low e hcanon hi, fun i hlow hi => ?_, fun i hi => builtAntilog_unused e s hi,
      fun i hi hlast => builtLog_last hcanon e hi hlast, fun x hx => builtLog_unvisited e hx⟩
    rw [builtAntilog_read hcanon e hi, builtAntilog_read hcanon e (by omega), Nat.mod_eq_sub_mod hlow]
  · exact ⟨genPow_255 hwf.primitive, fun i hi => genPow_ne_zero hwf.primitive hi⟩

/-! ## A BUILD of the field already built -/

section
variable {s : State} {e : CatEntry} (h : FieldBuilt s e)
include h

/-- A BUILD of the built entry writes ANTILOG as it is. -/
theorem FieldBuilt.builtAntilog_eq : builtAntilog e s = s.antilog := by
  have hcanon := h.inv.canonical
  refine Memory.eq_of_read (builtAntilog_wf e hcanon) hcanon.1 fun i => ?_
  by_cases hi : i < 510
  · rw [builtAntilog_read hcanon e hi, h.antilog_read hi]
  · exact builtAntilog_unused e s (by omega)

/-- A BUILD of the built entry writes LOG as it is: an entry that the walk visits holds the same log, and the others are kept. -/
theorem FieldBuilt.builtLog_eq : builtLog e s = s.log := by
  have hcanon := h.inv.canonical
  refine Memory.eq_of_read (builtLog_wf e hcanon) hcanon.2 fun x => ?_
  by_cases hx : ∃ i < 255, (genPow e i).toNat = x
  · obtain ⟨i, hi, rfl⟩ := hx
    rw [builtLog_power h.entry_wf.primitive hcanon hi, h.log_genPow hi]
  · exact builtLog_unvisited e fun i hi hp => hx ⟨i, hi, hp⟩

/-- A BUILD of the built entry changes nothing. -/
theorem FieldBuilt.buildField_eq : buildField s.sel e s = s := by
  rw [buildField, h.builtAntilog_eq, h.builtLog_eq]
  simp only [State.setBusy, State.setTables, State.setField, ← h.ready, ← h.inv.registers.busy]

end

/-- Settles O40: the tables after any BUILD are those of its entry, and a BUILD of SEL rewrites the built ones. -/
theorem rebuildReplacesField : Obligations.RebuildReplacesField := by
  refine ⟨fun k s hinv hready hk => ?_, fun s hinv hready hwf => ?_⟩
  · have he : catalogEntry s.config k = some s.config.catalog[k.toNat] := catalogEntry_eq_some.2 ⟨hk, rfl⟩
    refine ⟨_, exec_build_valid (by simp [hready]) he, rfl, by simp, by simp, ?_⟩
    exact (buildField_built hinv.canonical he).of_eq rfl rfl rfl rfl rfl
  · obtain ⟨e, h⟩ := hinv.fieldBuilt hready hwf
    have hexec := exec_build_valid h.not_fault h.entry
    rwa [h.buildField_eq] at hexec

end Sys2Proof.Machine
end

section
/-! PROOFS. The field operations: what they do outside READY, and their answers in READY for any tables (42_field_ops.md R440 to
R462). -/
namespace Sys2Proof.Machine

/-- What every command that needs READY does in EMPTY, in FAULT and when malformed. -/
theorem fieldCommand {i : Instr} {word : Word} (hi : needsReady i = true) (hword : encode i = word) :
    FieldCommand i word where
  encoding := hword
  inEmpty s hs := by rw [RaisesFatal, exec_of_empty hs hi, raiseFatal_of_not_fault (by simp [hs])]
  inFault s hs := exec_of_fault hs (by rintro rfl; cases hi) (by rintro rfl; cases hi)
  malformed := reservedBitsFatal (hword ▸ fieldOP_encode_ne_zero i)

/-! ## Answers in READY -/

section
variable {s : State} (hs : s.state = .ready)
include hs

/-- ADD in READY. -/
theorem answers_add (a b : Byte) : Answers (.add a b) s .ok (zext32 (a ^^^ b)) := fieldOp_ready hs _ _

/-- SUB in READY. -/
theorem answers_sub (a b : Byte) : Answers (.sub a b) s .ok (zext32 (a ^^^ b)) := fieldOp_ready hs _ _

/-- MUL in READY. -/
theorem answers_mul (a b : Byte) : Answers (.mul a b) s .ok (zext32 (fieldMul s a b)) := fieldOp_ready hs _ _

/-- DIV in READY by a zero divisor, for every dividend (42_field_ops.md R447). -/
theorem answers_div_zero (a : Byte) : Answers (.div a 0x00) s .divByZero 0x00000000 := fieldOp_ready hs _ _

/-- DIV in READY by a nonzero divisor. -/
theorem answers_div (a : Byte) {b : Byte} (hb : b ≠ 0x00) : Answers (.div a b) s .ok (zext32 (fieldDiv s a b)) :=
  (fieldOp_ready hs _ _).trans (by rw [if_neg hb]; rfl)

/-- INV in READY of 0. -/
theorem answers_inv_zero : Answers (.inv 0x00) s .undefined 0x00000000 := fieldOp_ready hs _ _

/-- INV in READY of a nonzero element. -/
theorem answers_inv {a : Byte} (ha : a ≠ 0x00) : Answers (.inv a) s .ok (zext32 (fieldInv s a)) :=
  (fieldOp_ready hs _ _).trans (by rw [if_neg ha]; rfl)

/-- POW in READY. -/
theorem answers_pow (a : Byte) (n : Half) : Answers (.pow a n) s .ok (zext32 (fieldPow s a n)) := fieldOp_ready hs _ _

/-- LOG in READY of 0. -/
theorem answers_log_zero : Answers (.log 0x00) s .undefined 0x00000000 := fieldOp_ready hs _ _

/-- LOG in READY of a nonzero element. -/
theorem answers_log {a : Byte} (ha : a ≠ 0x00) : Answers (.log a) s .ok (zext32 (logOf s a)) :=
  (fieldOp_ready hs _ _).trans (by rw [if_neg ha]; rfl)

/-- EXP in READY. -/
theorem answers_exp (i : Byte) : Answers (.exp i) s .ok (zext32 (s.antilog.read i.toNat)) := fieldOp_ready hs _ _

end

/-! ## ADD, SUB and the range of EXP -/

/-- Settles O28, from ADD's answer in READY. -/
theorem addIsXor : Obligations.AddIsXor := by
  refine fun a b => ⟨fieldCommand rfl rfl, fun s hs => ⟨answers_add hs a b, ?_, ?_, answers_add hs _ _⟩⟩
  · have hself := answers_add hs a a
    rwa [BitVec.xor_self] at hself
  · have hzero := answers_add hs a 0x00
    rwa [show a ^^^ 0x00 = a from BitVec.xor_zero] at hzero

/-- Settles O29, from SUB's answer in READY. -/
theorem subIsXor : Obligations.SubIsXor := by
  refine fun a b => ⟨fieldCommand rfl rfl, fun s hs => ⟨answers_sub hs a b, ?_, ?_, answers_sub hs _ _⟩⟩
  · rw [BitVec.xor_comm]
    exact answers_sub hs b a
  · have hself := answers_sub hs a a
    rwa [BitVec.xor_self] at hself

/-- Settles O27: no outcome of a word writes the cause EXP_RANGE. -/
theorem expRangeIsNeverRaised : Obligations.ExpRangeIsNeverRaised := by
  refine ⟨fun i s hs => answers_exp hs i, fun w s t h hcause => ?_⟩
  cases runWord_cases h with
  | refused | answered => exact hcause
  | fatal c hc hs =>
    rw [raiseFatal_of_not_fault hs] at hcause
    exact absurd hcause hc.2
  | built => simpa using hcause

end Sys2Proof.Machine
end

section
/-! PROOFS. In a built field the table lookups are the arithmetic of the carry-less multiplier (42_field_ops.md R444, R452, R471,
R472). -/
namespace Sys2Proof.Machine

/-! ## Powers of the generator -/

/-- Exponents add when powers are multiplied. -/
theorem genPow_add (e : CatEntry) (i j : Nat) : genPow e (i + j) = clmul8 (genPow e i) (genPow e j) e.low := by
  induction j with
  | zero => exact (clmul8_one _ _).symm
  | succ j ih => rw [← Nat.add_assoc, genPow, ih, clmul8_assoc, genPow]

/-- The powers of a primitive generator have period 255. -/
theorem genPow_periodic {e : CatEntry} (h : PrimitiveGen e) : Function.Periodic (genPow e) 255 := fun i => by
  rw [genPow_add, genPow_255 h, clmul8_one]

/-- The first power of the generator is the generator. -/
theorem genPow_one (e : CatEntry) : genPow e 1 = e.gen := one_clmul8 _ _

/-- A power multiplied by itself `n` times is a power. -/
theorem clmulPow_genPow (e : CatEntry) (i n : Nat) : clmulPow e.low (genPow e i) n = genPow e (i * n) := by
  induction n with
  | zero => rfl
  | succ n ih => rw [clmulPow, ih, ← genPow_add, Nat.mul_succ]

/-- Under a primitive generator a nonzero factor cancels. -/
theorem clmul8_cancel {e : CatEntry} (h : PrimitiveGen e) {p q b : Byte} (hb : b ≠ 0x00)
    (hpq : clmul8 p b e.low = clmul8 q b e.low) : p = q := by
  obtain ⟨c, hc⟩ := exists_inverse_of_primitiveGen h hb
  have hundo (x : Byte) : clmul8 (clmul8 x b e.low) c e.low = x := by rw [clmul8_assoc, hc, clmul8_one]
  rw [← hundo p, hpq, hundo]

/-! ## The lookups -/

/-- POW's lookup depends on `n` only through `n mod 255`, whatever the tables hold. -/
theorem fieldPow_congr {a : Byte} {n n' : Half} (ha : a ≠ 0x00) (hn : n.toNat % 255 = n'.toNat % 255) (s : State) :
    fieldPow s a n = fieldPow s a n' := by
  have hindex : powIndex (logOf s a) n = powIndex (logOf s a) n' := Nat.ModEq.mul_left _ hn
  rw [fieldPow, fieldPow, if_neg ha, if_neg ha, hindex]

section
variable {s : State} {e : CatEntry} (h : FieldBuilt s e)
include h

/-- Every entry of ANTILOG a command can read is the power with its index. -/
theorem FieldBuilt.antilog_eq_genPow {i : Nat} (hi : i < 510) : s.antilog.read i = genPow e i :=
  (h.antilog_read hi).trans ((genPow_periodic h.entry_wf.primitive).map_mod_nat i)

/-- The entry at a reduced index is the power with the index before the `mod`. -/
theorem FieldBuilt.antilog_mod (i : Nat) : s.antilog.read (i % 255) = genPow e i :=
  (h.antilog_low (Nat.mod_lt i (by decide))).trans ((genPow_periodic h.entry_wf.primitive).map_mod_nat i)

/-- A nonzero element is the power that its log says. -/
theorem FieldBuilt.genPow_logOf {a : Byte} (ha : a ≠ 0x00) : genPow e (logOf s a).toNat = a :=
  (h.antilog_low (h.log_lt ha)).symm.trans (h.antilog_log ha)

/-- MUL's lookup is the product. -/
theorem FieldBuilt.fieldMul_eq (a b : Byte) : fieldMul s a b = clmul8 a b e.low := by
  unfold fieldMul
  split
  next hab =>
    obtain rfl | rfl := hab
    · exact (zero_clmul8 _ _).symm
    · exact (clmul8_zero _ _).symm
  next hab =>
    obtain ⟨ha, hb⟩ := not_or.1 hab
    have hla : (logOf s a).toNat < 255 := h.log_lt ha
    have hlb : (logOf s b).toNat < 255 := h.log_lt hb
    rw [mulIndex, h.antilog_eq_genPow (by omega), genPow_add, h.genPow_logOf ha, h.genPow_logOf hb]

/-- DIV's lookup times the divisor is the dividend. -/
theorem FieldBuilt.fieldDiv_mul (a : Byte) {b : Byte} (hb : b ≠ 0x00) : clmul8 (fieldDiv s a b) b e.low = a := by
  unfold fieldDiv
  split
  next ha => rw [zero_clmul8, ha]
  next ha =>
    have hlb : (logOf s b).toNat < 255 := h.log_lt hb
    calc clmul8 (s.antilog.read (divIndex (logOf s a) (logOf s b))) b e.low
      _ = clmul8 (genPow e ((logOf s a).toNat + 255 - (logOf s b).toNat)) (genPow e (logOf s b).toNat) e.low := by
        rw [divIndex, h.antilog_mod, h.genPow_logOf hb]
      _ = genPow e ((logOf s a).toNat + 255) := by rw [← genPow_add, Nat.sub_add_cancel (by omega)]
      _ = a := by rw [genPow_periodic h.entry_wf.primitive, h.genPow_logOf ha]

/-- DIV's lookup is the one quotient. -/
theorem FieldBuilt.fieldDiv_eq {a b q : Byte} (hb : b ≠ 0x00) (hq : clmul8 q b e.low = a) : fieldDiv s a b = q :=
  clmul8_cancel h.entry_wf.primitive hb ((h.fieldDiv_mul a hb).trans hq.symm)

/-- An element times INV's lookup is 1. -/
theorem FieldBuilt.mul_fieldInv {a : Byte} (ha : a ≠ 0x00) : clmul8 a (fieldInv s a) e.low = 0x01 := by
  have hla : (logOf s a).toNat < 255 := h.log_lt ha
  calc clmul8 a (fieldInv s a) e.low
    _ = genPow e ((logOf s a).toNat + (255 - (logOf s a).toNat)) := by
      rw [fieldInv, invIndex, h.antilog_eq_genPow (by omega), genPow_add, h.genPow_logOf ha]
    _ = 0x01 := by rw [Nat.add_sub_cancel' hla.le, genPow_255 h.entry_wf.primitive]

/-- INV's lookup is the one inverse. -/
theorem FieldBuilt.fieldInv_eq {a q : Byte} (ha : a ≠ 0x00) (hq : clmul8 a q e.low = 0x01) : fieldInv s a = q :=
  clmul8_inverse_unique hq (h.mul_fieldInv ha)

/-- POW's lookup of a nonzero base is the base multiplied `n` times. -/
theorem FieldBuilt.fieldPow_eq {a : Byte} (ha : a ≠ 0x00) (n : Half) : fieldPow s a n = clmulPow e.low a n.toNat := by
  rw [fieldPow, if_neg ha, powIndex, h.antilog_mod, ← clmulPow_genPow, h.genPow_logOf ha]

/-! ## The answers -/

/-- MUL answers the product. -/
theorem FieldBuilt.answers_mul (a b : Byte) : Answers (.mul a b) s .ok (zext32 (clmul8 a b e.low)) := by
  rw [← h.fieldMul_eq]
  exact Machine.answers_mul h.ready a b

/-- DIV by a nonzero divisor answers the quotient. -/
theorem FieldBuilt.answers_div {a b q : Byte} (hb : b ≠ 0x00) (hq : clmul8 q b e.low = a) :
    Answers (.div a b) s .ok (zext32 q) := by
  rw [← h.fieldDiv_eq hb hq]
  exact Machine.answers_div h.ready a hb

/-- INV of a nonzero element answers the inverse. -/
theorem FieldBuilt.answers_inv {a q : Byte} (ha : a ≠ 0x00) (hq : clmul8 a q e.low = 0x01) :
    Answers (.inv a) s .ok (zext32 q) := by
  rw [← h.fieldInv_eq ha hq]
  exact Machine.answers_inv h.ready ha

/-- POW of a nonzero base answers the base multiplied `n` times. -/
theorem FieldBuilt.answers_pow {a : Byte} (ha : a ≠ 0x00) (n : Half) :
    Answers (.pow a n) s .ok (zext32 (clmulPow e.low a n.toNat)) := by
  rw [← h.fieldPow_eq ha]
  exact Machine.answers_pow h.ready a n

/-- LOG of a power answers its exponent. -/
theorem FieldBuilt.answers_log {i : Nat} (hi : i < 255) :
    Answers (.log (genPow e i)) s .ok (zext32 (BitVec.ofNat 8 i)) := by
  rw [← h.log_genPow hi]
  exact Machine.answers_log h.ready (genPow_ne_zero h.entry_wf.primitive hi)

/-- EXP answers the power. -/
theorem FieldBuilt.answers_exp (i : Byte) : Answers (.exp i) s .ok (zext32 (genPow e i.toNat)) := by
  rw [← h.antilog_eq_genPow (by omega)]
  exact Machine.answers_exp h.ready i

end

/-! ## The period of ANTILOG and of POW -/

/-- Settles O50: an entry from 255 on repeats the one 255 below it, and the sum of two logs is at most 508. -/
theorem antilogTableIsPeriodic : Obligations.AntilogTableIsPeriodic := by
  intro s hinv hready
  have hperiod : ∀ i < 510, s.antilog.read i = s.antilog.read (i % 255) := by
    intro i hi
    have he : catalogEntry s.config s.sel = some _ := catalogEntry_eq_some.2 ⟨hinv.registers.sel, rfl⟩
    by_cases hlow : i < 255
    · rw [Nat.mod_eq_of_lt hlow]
    · obtain ⟨j, rfl⟩ : ∃ j, i = 255 + j := ⟨i - 255, by omega⟩
      have hj : j < 255 := by omega
      rw [Nat.add_mod_left, Nat.mod_eq_of_lt hj, hinv.built.antilogHigh hready _ he j hj,
        hinv.built.antilogLow hready _ he j hj]
  refine ⟨hperiod, fun hwf a b ha hb => ?_⟩
  obtain ⟨e, h⟩ := hinv.fieldBuilt hready hwf
  have hla := h.log_lt ha
  have hlb := h.log_lt hb
  have hmul : fieldMul s a b = s.antilog.read ((s.log.read a.toNat).toNat + (s.log.read b.toNat).toNat) :=
    if_neg (not_or.2 ⟨ha, hb⟩)
  rw [← hperiod _ (by omega), ← hmul]
  exact answers_mul hready a b

/-- Settles O57: the index of POW's lookup is a product mod 255, and in a built field the lookup is the field power. -/
theorem powDependsOnExponentMod255 : Obligations.PowDependsOnExponentMod255 := by
  refine ⟨fun a n n' s hs ha hn => ⟨_, answers_pow hs a n, ?_⟩, fun n n' s hs hn => ⟨_, answers_pow hs 0x00 n, ?_⟩,
    fun s e h a ha => ⟨?_, h.answers_pow ha 0, h.answers_pow ha⟩⟩
  · rw [fieldPow_congr ha hn]
    exact answers_pow hs a n'
  · have hzero : fieldPow s 0x00 n = fieldPow s 0x00 n' := by simp only [fieldPow, if_true, hn]
    rw [hzero]
    exact answers_pow hs 0x00 n'
  · have hla := h.log_lt ha
    omega

/-! ## Field arithmetic -/

/-- Settles O59, from the lookups; quotients and inverses are unique. -/
theorem tableArithmeticIsFieldArithmetic : Obligations.TableArithmeticIsFieldArithmetic := by
  refine fun s e h => ⟨fun a b => ⟨h.answers_mul a b, ?_⟩, fun a b hb => ?_, fun a ha => ?_,
    fun a n ha => h.answers_pow ha n⟩
  · rw [low_eq_extractLsb']
    exact answers_clmul h.not_fault h.entry a b
  · exact ⟨_, answers_div h.ready a hb, h.fieldDiv_mul a hb, fun q hq => (h.fieldDiv_eq hb hq).symm⟩
  · exact ⟨_, answers_inv h.ready ha, h.mul_fieldInv ha, fun q hq => (h.fieldInv_eq ha hq).symm⟩

/-- A command has one answer. -/
theorem Answers.unique {i : Instr} {s : State} {st st' : Status} {d d' : Word} (h : Answers i s st d)
    (h' : Answers i s st' d') : st = st' ∧ d = d' := by
  have hnext := h.symm.trans h'
  injection hnext with hstate
  have hpending := congrArg State.pending hstate
  injection hpending with hresponse
  exact Response.mk.inj hresponse

/-- `zext_32` of a byte is injective. -/
theorem zext32_injective : Function.Injective (zext32 : Byte → Word) := fun a b h => by
  have hlow := congrArg (BitVec.setWidth 8) h
  simpa [zext32] using hlow

/-- In a built field EXP of an exponent below 255 answers a byte only if it is that power. -/
theorem FieldBuilt.genPow_of_answers_exp {s : State} {e : CatEntry} (h : FieldBuilt s e) {i y : Byte}
    (hy : Answers (.exp i) s .ok (zext32 y)) : genPow e i.toNat = y :=
  zext32_injective ((h.answers_exp i).unique hy).2

/-- In a built field each nonzero byte is a power whose exponent, a byte below 255, is its log. -/
theorem FieldBuilt.exists_exponent {s : State} {e : CatEntry} (h : FieldBuilt s e) {a : Byte} (ha : a ≠ 0x00) :
    ∃ i : Byte, i.toNat < 255 ∧ genPow e i.toNat = a ∧ Answers (.log a) s .ok (zext32 i) :=
  ⟨logOf s a, h.log_lt ha, h.genPow_logOf ha, Machine.answers_log h.ready ha⟩

/-- Settles O58: each law is one of the multiplier or of the generator's powers, read through the answers. -/
theorem fieldOperationsObeyFieldLaws : Obligations.FieldOperationsObeyFieldLaws := by
  intro s e h
  have hprim : PrimitiveGen e := h.entry_wf.primitive
  refine ⟨fun a b => ?add, fun a b hb => ?div, fun a ha => ?inv, fun a ha => ?expLog,
    ⟨answers_log_zero h.ready, answers_inv_zero h.ready, answers_div_zero h.ready⟩, fun y hy => ?permutation,
    fun i => ?nonzero, fun a b c => ?distrib, fun a ha => h.answers_pow ha 0, fun a b c => ?assoc, fun a => ?units⟩
  case add =>
    refine ⟨answers_add h.ready a b, ?_, ?_⟩
    · rw [BitVec.xor_comm]
      exact answers_add h.ready b a
    · have hself := answers_sub h.ready a a
      rwa [BitVec.xor_self] at hself
  case div => exact ⟨_, h.answers_mul a b, h.answers_div hb rfl⟩
  case inv =>
    obtain ⟨q, hq⟩ := exists_inverse_of_primitiveGen hprim ha
    have hmul := h.answers_mul a q
    have hmul' := h.answers_mul q a
    rw [clmul8_comm, hq] at hmul'
    rw [hq] at hmul
    exact ⟨q, h.answers_inv ha hq, hmul, hmul'⟩
  case expLog =>
    obtain ⟨i, -, rfl, hlog⟩ := h.exists_exponent ha
    exact ⟨i, hlog, h.answers_exp i⟩
  case permutation =>
    obtain ⟨i, hi, rfl, -⟩ := h.exists_exponent hy
    exact ⟨i, hi, h.answers_exp i, fun j hj hexp =>
      BitVec.eq_of_toNat_eq (genPow_injective hprim hj hi (h.genPow_of_answers_exp hexp))⟩
  case nonzero =>
    refine ⟨genPow e i.toNat, ?_, h.answers_exp i⟩
    rw [← (genPow_periodic hprim).map_mod_nat]
    exact genPow_ne_zero hprim (Nat.mod_lt _ (by decide))
  case distrib =>
    refine ⟨_, _, h.answers_mul a b, h.answers_mul a c, ?_⟩
    rw [← clmul8_xor]
    exact h.answers_mul a (b ^^^ c)
  case assoc =>
    refine ⟨_, _, _, h.answers_mul a b, ?_, h.answers_mul b c, h.answers_mul _ c, ?_⟩
    · rw [clmul8_comm]
      exact h.answers_mul b a
    · rw [clmul8_assoc]
      exact h.answers_mul a _
  case units =>
    have hone := h.answers_mul a 0x01
    have hzero := h.answers_mul a 0x00
    rw [clmul8_one] at hone
    rw [clmul8_zero] at hzero
    exact ⟨hone, hzero⟩

/-! ## Independence of the generator -/

section
variable {s u : State} {e f : CatEntry} (hs : FieldBuilt s e) (hu : FieldBuilt u f) (hlow : e.low = f.low)
include hs hu hlow

/-- MUL's lookup depends only on the modulus. -/
theorem fieldMul_eq_of_low (a b : Byte) : fieldMul s a b = fieldMul u a b := by
  rw [hs.fieldMul_eq, hu.fieldMul_eq, hlow]

/-- So does DIV's. -/
theorem fieldDiv_eq_of_low (a : Byte) {b : Byte} (hb : b ≠ 0x00) : fieldDiv s a b = fieldDiv u a b :=
  hs.fieldDiv_eq hb (hlow ▸ hu.fieldDiv_mul a hb)

/-- So does INV's. -/
theorem fieldInv_eq_of_low {a : Byte} (ha : a ≠ 0x00) : fieldInv s a = fieldInv u a :=
  hs.fieldInv_eq ha (hlow ▸ hu.mul_fieldInv ha)

/-- POW's depends only on the modulus and `POW_ZERO_ZERO`. -/
theorem fieldPow_eq_of_low (hzero : s.config.powZeroZero = u.config.powZeroZero) (a : Byte) (n : Half) :
    fieldPow s a n = fieldPow u a n := by
  by_cases ha : a = 0x00
  · rw [fieldPow, fieldPow, if_pos ha, if_pos ha, hzero]
  · rw [hs.fieldPow_eq ha, hu.fieldPow_eq ha, hlow]

end

/-- Settles O60: each lookup is fixed by the modulus; EXP, LOG and CATGEN are read off the powers and the entry. -/
theorem resultsIndependentOfGenerator : Obligations.ResultsIndependentOfGenerator := by
  refine ⟨fun s u e f hs hu hvalue hzero a b n i hi => ?_, fun s e h =>
    ⟨h.answers_exp, fun a => h.exists_exponent, answers_catgen h.not_fault h.entry⟩⟩
  have hlow : e.low = f.low := by rw [CatEntry.low, hvalue, CatEntry.low]
  simp only [List.mem_cons, List.not_mem_nil, or_false] at hi
  obtain rfl | rfl | rfl | rfl | rfl | rfl := hi
  · exact ⟨_, _, answers_add hs.ready a b, answers_add hu.ready a b⟩
  · exact ⟨_, _, answers_sub hs.ready a b, answers_sub hu.ready a b⟩
  · exact ⟨_, _, answers_mul hs.ready a b, fieldMul_eq_of_low hs hu hlow a b ▸ answers_mul hu.ready a b⟩
  · by_cases hb : b = 0x00
    · subst hb
      exact ⟨_, _, answers_div_zero hs.ready a, answers_div_zero hu.ready a⟩
    · exact ⟨_, _, answers_div hs.ready a hb, fieldDiv_eq_of_low hs hu hlow a hb ▸ answers_div hu.ready a hb⟩
  · by_cases ha : a = 0x00
    · subst ha
      exact ⟨_, _, answers_inv_zero hs.ready, answers_inv_zero hu.ready⟩
    · exact ⟨_, _, answers_inv hs.ready ha, fieldInv_eq_of_low hs hu hlow ha ▸ answers_inv hu.ready ha⟩
  · exact ⟨_, _, answers_pow hs.ready a n, fieldPow_eq_of_low hs hu hlow hzero a n ▸ answers_pow hu.ready a n⟩

end Sys2Proof.Machine
end

section
/-! PROOFS. MUL, DIV, INV, POW, LOG and EXP, each whole: the rule in READY, and its corner cases in a built field (42_field_ops.md
R443 to R460). -/
namespace Sys2Proof.Machine

/-- Settles O30: the rule is MUL's lookup; the identity and the example are products. -/
theorem mulLooksUpSumOfLogs : Obligations.MulLooksUpSumOfLogs := by
  refine fun a b => ⟨fieldCommand rfl rfl, fun s hs => ?_, fun s e h => ⟨fun ha hb => ?_, ?_, ?_⟩⟩
  · have hdata : zext32 (fieldMul s a b) = if a = 0x00 ∨ b = 0x00 then 0x00000000
        else zext32 (s.antilog.read ((s.log.read a.toNat).toNat + (s.log.read b.toNat).toNat)) := apply_ite zext32 _ _ _
    rw [← hdata]
    exact answers_mul hs a b
  · have hla := h.log_lt ha
    have hlb := h.log_lt hb
    omega
  · have hone := h.answers_mul a 0x01
    rwa [clmul8_one] at hone
  · rintro rfl
    have hexample := h.answers_mul 0x53 0xCA
    rwa [show clmul8 0x53 0xCA (CatEntry.low ⟨0x11b, 0x03⟩) = 0x01 from multiplierTrace.2] at hexample

/-- Settles O31: the divisor is tested first; in a built field the corner cases are quotients. -/
theorem divLooksUpDifferenceOfLogs : Obligations.DivLooksUpDifferenceOfLogs := by
  refine fun a b => ⟨fieldCommand rfl rfl, fun s hs => ?_, fun s e h =>
    ⟨fun ha => h.answers_div ha (one_clmul8 _ a), h.answers_div (by decide) (clmul8_one _ a),
      answers_div_zero h.ready _, ?_⟩⟩
  · split_ifs with hb ha
    · subst hb
      exact answers_div_zero hs a
    · subst ha
      exact answers_div hs 0x00 hb
    · have hdata : fieldDiv s a b = s.antilog.read
          (((s.log.read a.toNat).toNat + 255 - (s.log.read b.toNat).toNat) % 255) := if_neg ha
      rw [← hdata]
      exact answers_div hs a hb
  · rintro rfl
    exact h.answers_div (by decide) multiplierTrace.2

/-- Settles O32: INV's lookup stays above entry 0 since no log is 255; in a built field the corner cases are inverses. -/
theorem invLooksUpNegatedLog : Obligations.InvLooksUpNegatedLog := by
  refine fun a => ⟨fieldCommand rfl rfl, fun s hs => ?_, fun s e h =>
    ⟨fun ha => ?_, h.log_genPow (i := 0) (by decide), h.answers_inv (by decide) (one_clmul8 _ 0x01), ?_⟩⟩
  · split_ifs with ha
    · subst ha
      exact answers_inv_zero hs
    · exact answers_inv hs ha
  · have hla := h.log_lt ha
    omega
  · rintro rfl
    exact h.answers_inv (by decide) multiplierTrace.2

/-- Settles O33: the rule is POW's lookup; 255 and 65535 are 0 mod 255, and the other corner cases are field powers. -/
theorem powLooksUpMultipleOfLog : Obligations.PowLooksUpMultipleOfLog := by
  refine fun a n => ⟨fieldCommand rfl rfl, fun s hs => ?_, fun c => ?_, fun s e h => ?_⟩
  · have hdata : zext32 (fieldPow s a n) =
        if a = 0x00 then (if n = 0 then zext32 s.config.powZeroZero else 0x00000000)
        else zext32 (s.antilog.read (((s.log.read a.toNat).toNat * n.toNat) % 255)) := by
      rw [fieldPow, apply_ite zext32, apply_ite zext32]
      rfl
    rw [← hdata]
    exact answers_pow hs a n
  · unfold Config.powZeroZero
    cases c.powZeroZeroIsOne
    · exact .inl rfl
    · exact .inr rfl
  · have hone (n : Half) (hn : n.toNat % 255 = 0) (ha : a ≠ 0x00) : Answers (.pow a n) s .ok 0x00000001 := by
      have hpow := answers_pow h.ready a n
      rwa [fieldPow_congr ha (n' := 0) hn, h.fieldPow_eq ha] at hpow
    refine ⟨hone 0 rfl, ?_, fun ha => ⟨hone 255 rfl ha, hone 65535 rfl ha⟩, ?_, ?_⟩
    · by_cases ha : a = 0x00
      · subst ha
        exact answers_pow h.ready 0x00 1
      · have hpow := h.answers_pow ha 1
        rwa [show clmulPow e.low a (1 : Half).toNat = a from one_clmul8 _ a] at hpow
    · rintro rfl
      have hexample := h.answers_pow (a := 0x02) (by decide) 8
      rwa [show clmulPow (CatEntry.low ⟨0x11d, 0x02⟩) 0x02 (8 : Half).toNat = 0x1D by decide] at hexample
    · rintro rfl
      have hexample := h.answers_pow (a := 0x02) (by decide) 8
      rwa [show clmulPow (CatEntry.low ⟨0x11b, 0x03⟩) 0x02 (8 : Half).toNat = 0x1B by decide] at hexample

/-- Settles O34: in a built field the corner cases are logs of powers; 0x02 is power 25 of 0x03 under 0x11b. -/
theorem logLooksUpExponent : Obligations.LogLooksUpExponent := by
  refine fun a => ⟨fieldCommand rfl rfl, fun s hs => ?_, fun s e h => ⟨fun ha => ?_, ?_, ?_, ?_⟩⟩
  · split_ifs with ha
    · subst ha
      exact answers_log_zero hs
    · exact answers_log hs ha
  · have hla := h.log_lt ha
    omega
  · exact h.answers_log (i := 0) (by decide)
  · have hgen := h.answers_log (i := 1) (by decide)
    rwa [genPow_one] at hgen
  · rintro rfl
    have hthree := h.answers_log (i := 1) (by decide)
    have htwo := h.answers_log (i := 25) (by decide)
    rw [genPow_one] at hthree
    rw [show genPow ⟨0x11b, 0x03⟩ 25 = 0x02 by decide] at htwo
    exact ⟨hthree, htwo⟩

/-- Settles O35: in a built field the corner cases are powers; power 254 is the inverse of the generator. -/
theorem expLooksUpPower : Obligations.ExpLooksUpPower := by
  refine fun i => ⟨fieldCommand rfl rfl, fun s hs => answers_exp hs i, fun s e h => ?_⟩
  have hprim : PrimitiveGen e := h.entry_wf.primitive
  refine ⟨h.answers_exp 0, ?_, genPow_255 hprim, ?_, ?_⟩
  · have hlast := h.answers_exp 255
    rwa [show genPow e (255 : Byte).toNat = 0x01 from genPow_255 hprim] at hlast
  · rw [h.antilog_read (by omega)]
    exact genPow_ne_zero hprim (Nat.mod_lt _ (by decide))
  · rintro rfl
    have hinverse : clmul8 0xF6 0x03 0x1B = 0x01 := by decide
    have h254 : genPow ⟨0x11b, 0x03⟩ 254 = 0xF6 := clmul8_gen_cancel hprim ((genPow_255 hprim).trans hinverse.symm)
    have hone := h.answers_exp 1
    have hlast := h.answers_exp 254
    rw [show genPow ⟨0x11b, 0x03⟩ (1 : Byte).toNat = 0x03 from genPow_one _] at hone
    rw [show genPow ⟨0x11b, 0x03⟩ (254 : Byte).toNat = 0xF6 from h254] at hlast
    exact ⟨hone, hlast⟩

end Sys2Proof.Machine
end

section
/-! PROOFS. The queries: QSEL, QSTAT and QFCMD (43_query.md R480 to R483). -/
namespace Sys2Proof.Machine

/-! ## What the queries answer -/

/-- QSEL in READY. -/
theorem answers_qsel {s : State} (hs : s.state = .ready) : Answers .qsel s .ok (zext32 s.sel) := fieldOp_ready hs _ _

/-- QSTAT in every state. -/
theorem answers_qstat (s : State) : Answers .qstat s .ok (statusData s) := rfl

/-- QFCMD in every state. -/
theorem answers_qfcmd (s : State) : Answers .qfcmd s .ok s.faultCmd := rfl

/-! ## In FAULT, after a BUILD and at reset -/

/-- In FAULT a malformed word is refused, QSTAT's and QFCMD's opcodes included (60_exceptions.md R610). -/
theorem runWord_of_fault_of_reservedBit {w : Word} {s : State} (hs : s.state = .fault) (hop : fieldOP w ≠ 0x0)
    (h : HasReservedBit w) : runWord w s = .next (refuseInFault s) := by
  rw [runWord_of_reservedBit hop h, raiseFatal_of_fault hs]

/-- In FAULT no accepted word writes FAULT_CMD (10_state.md R106). -/
theorem runWord_faultCmd_of_fault {w : Word} {s t : State} (hs : s.state = .fault) (h : runWord w s = .next t) :
    t.faultCmd = s.faultCmd := by
  cases runWord_cases h with
  | refused | answered => rfl
  | fatal _ _ hn | built _ _ _ hn => exact absurd hs hn

/-- At reset the engine is not in FAULT (70_reset_and_hazards.md R701). -/
theorem resetWith_not_fault (c : Config) : (State.resetWith c).state ≠ .fault := by simp [State.resetWith]

/-- QSTAT's data at reset: every register it shows is 0 there. -/
theorem statusData_resetWith (c : Config) : statusData (State.resetWith c) = 0x00000000 := by
  simp [statusData, State.resetWith, FaultCause.code, EngineState.code]

/-- QSTAT's data after a fatal entry shows SEL, the cause and FAULT. -/
theorem statusData_raiseFatal {s : State} (hs : s.state ≠ .fault) (cause : FaultCause) (w : Word) :
    statusData (raiseFatal cause w s) = 0x0000#16 ++ s.sel ++ cause.code ++ 0b00#2 ++ 0b10#2 := by
  rw [raiseFatal_of_not_fault hs]
  rfl

/-- QSTAT's data after a BUILD shows the index, the cause as it was and READY. -/
theorem statusData_buildField (st : Status) (d : Word) (k : Byte) (e : CatEntry) (s : State) :
    statusData (respond st d (buildField k e s)) = 0x0000#16 ++ k ++ s.faultCause.code ++ 0b00#2 ++ 0b01#2 := by
  simp [statusData, EngineState.code]

/-! ## The three queries, each whole -/

/-- Settles O41, from QSEL's answer in READY and the SEL that a BUILD leaves. -/
theorem qselReadsSelector : Obligations.QselReadsSelector := by
  refine ⟨fieldCommand rfl rfl, fun s hs => answers_qsel hs, fun s hinv => hinv.registers.sel, fun k s hs hk => ?_⟩
  have hqsel := answers_qsel (s := respond .ok 0x00000000 (buildField k s.config.catalog[k.toNat] s)) (by simp)
  rw [respond_sel, buildField_sel] at hqsel
  exact ⟨_, exec_build_valid hs (catalogEntry_eq_some.2 ⟨hk, rfl⟩), hqsel⟩

/-- Settles O42: the malformed words by the checks, and the three status words from reset by the registers they show. -/
theorem qstatReadsStatus : Obligations.QstatReadsStatus := by
  refine ⟨rfl, reservedBitsFatal (by decide), fun w s hop hres hs => ?_, answers_qstat, fun c => ⟨?_, ?_, ?_⟩⟩
  · exact runWord_of_fault_of_reservedBit hs (by simp [hop]) hres
  · exact statusData_resetWith c ▸ answers_qstat _
  · have hword : statusData (raiseFatal .notReady (encode (.mul 1 2)) (State.resetWith c)) = 0x00000042 := by
      rw [statusData_raiseFatal (resetWith_not_fault c)]
      simp [State.resetWith, FaultCause.code]
    exact ⟨_, exec_of_empty rfl rfl, hword ▸ answers_qstat _⟩
  · have hentry : catalogEntry (State.resetWith c).config 1 = some c.catalog[1] :=
      catalogEntry_eq_some.2 ⟨by decide, rfl⟩
    have hword : statusData (respond .ok 0 (buildField 1 c.catalog[1] (State.resetWith c))) = 0x00000101 := by
      rw [statusData_buildField]
      simp [State.resetWith, FaultCause.code]
    exact ⟨_, exec_build_valid (resetWith_not_fault c) hentry, hword ▸ answers_qstat _⟩

/-- Settles O43: fatal entry writes FAULT_CMD, and in FAULT no word writes it again. -/
theorem qfcmdReadsFaultingWord : Obligations.QfcmdReadsFaultingWord := by
  refine ⟨rfl, reservedBitsFatal (by decide), fun w s hop hres hs => ?_, answers_qfcmd, fun s hinv hs => ?_,
    fun w v s t u hs hrun ht hlater => ?_, fun c => ?_⟩
  · exact runWord_of_fault_of_reservedBit hs (by simp [hop]) hres
  · exact hinv.registers.cmd hs ▸ answers_qfcmd s
  · have hfirst : t.faultCmd = w := faultCmdHoldsFirstFaultingWord.2.1 w s t hrun hs ht
    have hkept : u.faultCmd = t.faultCmd := runWord_faultCmd_of_fault ht hlater
    exact hfirst ▸ hkept ▸ answers_qfcmd u
  · have hinvalid : RaisesFatal (.build 30) (State.resetWith c) .invalidIndex :=
      (invalidIndexIsFatal.2 (.build 30) 30 _ rfl (by decide) (resetWith_not_fault c)).2
    exact ⟨_, hinvalid, answers_qfcmd _⟩

end Sys2Proof.Machine
end

section
/-! PROOFS. Fatal and recoverable failures, refusal in FAULT, the `fault` output and the idle engine (60_exceptions.md R603,
R610 to R613, R631, R645). -/
namespace Sys2Proof.Machine

/-! ## An accepted word that fails -/

/-- A word answered FATAL outside FAULT raised a fatal failure for that word (60_exceptions.md R610). -/
theorem runWord_eq_raiseFatal {w : Word} {s t : State} {d : Word} (hs : s.state ≠ .fault) (h : runWord w s = .next t)
    (hfatal : t.pending = some ⟨.fatal, d⟩) : ∃ c, t = raiseFatal c w s := by
  cases runWord_cases h with
  | refused hf => exact absurd hf hs
  | fatal c => exact ⟨c, rfl⟩
  | built => cases hfatal
  | answered _ _ hst => cases hfatal; exact absurd rfl hst

/-- Settles O21: the two cases of `raise Fatal`, and the first of them for a word answered FATAL. -/
theorem fatalFailureIsPrecise : Obligations.FatalFailureIsPrecise := by
  refine ⟨fun c w s hs => raiseFatal_of_not_fault hs c w, fun c w s hs => raiseFatal_of_fault hs c w,
    fun w s t hs h ⟨d, hfatal⟩ => ?_⟩
  obtain ⟨c, rfl⟩ := runWord_eq_raiseFatal hs h hfatal
  exact ⟨c, raiseFatal_of_not_fault hs c w⟩

/-- Settles O24: of everything an accepted word can do, only an answer in READY carries such a status. -/
theorem recoverableFailureChangesNothing : Obligations.RecoverableFailureChangesNothing := by
  refine ⟨fun w s t r h hr hst => ?_, fun _ _ => rfl⟩
  cases runWord_cases h with
  | refused | fatal | built => cases hr; simp at hst
  | answered st d _ hok =>
    cases hr
    obtain ⟨hs, rfl⟩ := hok (by rintro rfl; simp at hst)
    exact ⟨hs, rfl⟩

/-! ## In FAULT -/

/-- Settles O22, by the first check of an accepted word. -/
theorem faultRefusesEveryOtherCommand : Obligations.FaultRefusesEveryOtherCommand :=
  fun _ _ hs hstat hfcmd => runWord_of_fault hs hstat hfcmd

/-- A response changes nothing but the response port. -/
theorem respond_sameEngine (st : Status) (d : Word) (s : State) : SameEngine s (respond st d s) := by
  constructor <;> rfl

/-- In FAULT every accepted word only answers, FATAL or OK (60_exceptions.md R613). -/
theorem runWord_eq_respond_of_fault {w : Word} {s t : State} (hs : s.state = .fault) (h : runWord w s = .next t) :
    ∃ st d, t = respond st d s ∧ (st = .fatal ∨ st = .ok) := by
  cases runWord_cases h with
  | refused => exact ⟨.fatal, _, rfl, .inl rfl⟩
  | fatal _ _ hn | built _ _ _ hn => exact absurd hs hn
  | answered st d _ hok =>
    refine ⟨st, d, rfl, .inr ?_⟩
    by_contra hne
    obtain ⟨hready, -⟩ := hok hne
    rw [hs] at hready; cases hready

/-- A step that leaves FAULT is a reset (60_exceptions.md R613). -/
theorem reset_of_step_leaves_fault {s t : State} (hs : s.state = .fault) (h : step s = .next t) (ht : t.state ≠ .fault) :
    ∃ x rest, s.inputs = x :: rest ∧ x.rst ≠ .released := by
  obtain ⟨-, rfl⟩ | ⟨x, rest, hin, hstep⟩ := step_cases h
  · exact absurd hs ht
  · refine ⟨x, rest, hin, fun hr => ht ?_⟩
    obtain ⟨hr', -⟩ | ⟨n, hr', -⟩ | ⟨w, -, -, -, hrun⟩ | ⟨-, -, rfl⟩ := hstep
    · rw [hr] at hr'; cases hr'
    · rw [hr] at hr'; cases hr'
    · obtain ⟨st, d, rfl, -⟩ := runWord_eq_respond_of_fault (s := s.setInputs rest) hs hrun
      exact hs
    · exact (transferResponse_state x _).trans hs

/-- Settles O23: in FAULT an accepted word only answers, and a step out of it is a reset. -/
theorem noCommandLeavesFault : Obligations.NoCommandLeavesFault := by
  refine ⟨fun w s hs => ?_, fun _ _ => reset_of_step_leaves_fault⟩
  obtain ⟨t, -, ht, -⟩ := runWord_isAnswered w s
  obtain ⟨st, d, rfl, hst⟩ := runWord_eq_respond_of_fault hs ht
  exact ⟨_, ht, respond_sameEngine st d s, ⟨st, d⟩, rfl, hst⟩

/-! ## The `fault` output -/

/-- `fault` is 1 exactly in FAULT. -/
theorem faultOut_eq_true {s : State} : faultOut s = true ↔ s.state = .fault := decide_eq_true_iff

/-- `fault` is 0 exactly outside FAULT. -/
theorem faultOut_eq_false {s : State} : faultOut s = false ↔ s.state ≠ .fault := decide_eq_false_iff_not

/-- A step that enters FAULT answers FATAL (60_exceptions.md R610, R631). -/
theorem fatal_of_step_enters_fault {s t : State} (hs : s.state ≠ .fault) (h : step s = .next t) (ht : t.state = .fault) :
    ∃ d, t.pending = some ⟨.fatal, d⟩ := by
  obtain ⟨-, rfl⟩ | ⟨x, rest, -, hstep⟩ := step_cases h
  · exact absurd ht hs
  · obtain ⟨-, rfl⟩ | ⟨n, -, rfl⟩ | ⟨w, -, -, -, hrun⟩ | ⟨-, -, rfl⟩ := hstep
    · cases ht
    · cases ht
    · obtain ⟨-, hready, -⟩ | ⟨-, -, c, hfatal, -⟩ := runWord_state_change hrun (by rw [ht]; exact hs.symm)
      · rw [ht] at hready; cases hready
      · exact ⟨_, hfatal⟩
    · exact absurd ((transferResponse_state x _).symm.trans ht) hs

/-- Settles O20, from the steps that enter and leave FAULT. -/
theorem faultOutputFollowsState : Obligations.FaultOutputFollowsState :=
  ⟨fun _ => faultOut_eq_true,
    fun _ _ h hs ht => fatal_of_step_enters_fault (faultOut_eq_false.1 hs) h (faultOut_eq_true.1 ht),
    fun _ _ h hs ht => reset_of_step_leaves_fault (faultOut_eq_true.1 hs) h (faultOut_eq_false.1 ht)⟩

/-! ## The idle engine -/

/-- Without `rsp_ready` no response transfers. -/
theorem transferResponse_of_not_rspReady {x : HostInput} (h : x.rspReady = false) (s : State) :
    transferResponse x s = s := by
  simp [transferResponse, h]

/-- Settles O13: with no command offered a step is at most a response transfer. -/
theorem idleEngineHolds : Obligations.IdleEngineHolds :=
  ⟨fun _ => step_of_no_inputs, fun s x rest hin hr hcmd =>
    ⟨_, step_not_accepted hin hr (.inl hcmd), transferResponse_sameEngine x rest s,
      fun htake => transferResponse_of_not_rspReady htake _⟩⟩

end Sys2Proof.Machine
end

section
/-! PROOFS. Reset: the step with `rst`, the reset values, and the unspecified tables that no command shows
(70_reset_and_hazards.md R700 to R702). -/
namespace Sys2Proof.Machine

/-! ## A step with `rst` -/

/-- A command that reset cuts short leaves at most other tables (70_reset_and_hazards.md R702). -/
theorem cutShort_eq_setTables (n : Nat) (x : HostInput) (s : State) :
    ∃ antilog log, cutShort n x s = s.setTables antilog log := by
  have hsame : ∃ antilog log, s = s.setTables antilog log := ⟨s.antilog, s.log, rfl⟩
  unfold cutShort
  split
  next w =>
    split_ifs
    · split
      next k _ =>
        cases catalogEntry s.config k with
        | some e => unfold partialBuild; exact ⟨_, _, rfl⟩
        | none => exact hsame
      next => exact hsame
    · exact hsame
  next => exact hsame

/-- A step with `rst`, asserted from the start or during a command, is the reset of the state up to its tables. -/
theorem step_of_reset {s : State} {x : HostInput} {rest : List HostInput} (hin : s.inputs = x :: rest)
    (hr : x.rst ≠ .released) :
    ∃ antilog log, step s = .next (applyReset ((s.setInputs rest).setTables antilog log)) := by
  rw [step_of_inputs hin]
  cases hx : x.rst with
  | released => exact absurd hx hr
  | asserted => exact ⟨s.antilog, s.log, by simp only [stepInput, hx]; rfl⟩
  | duringCommand n =>
    obtain ⟨antilog, log, htables⟩ := cutShort_eq_setTables n x (s.setInputs rest)
    exact ⟨antilog, log, by simp only [stepInput, hx, htables]⟩

/-- Settles O14: a step with `rst` is `applyReset`, after which the engine is ready, and only such a step leaves FAULT. -/
theorem resetStepResetsEngine : Obligations.ResetStepResetsEngine := by
  refine ⟨fun x s hr => ?_, fun s x rest hin hr => ?_, fun s t => reset_of_step_leaves_fault⟩
  · simp [cmdReady, rspValid, hr]
  · obtain ⟨antilog, log, hstep⟩ := step_of_reset hin hr
    exact ⟨_, hstep, rfl, rfl, rfl, rfl, rfl, rfl, rfl, rfl, rfl, fun y hy => cmdReady_iff.2 ⟨hy, rfl, rfl⟩⟩

/-! ## In EMPTY no answer depends on the tables -/

/-- Two outcomes are next states with the same response and the same STATE. -/
def AnsweredAlike (o p : Out) : Prop := ∃ t u, o = .next t ∧ p = .next u ∧ t.pending = u.pending ∧ t.state = u.state

section
variable {s : State} (hs : s.state = .empty) (antilog log : Memory)
include hs

/-- The same fatal failure, whatever the tables hold. -/
theorem raiseFatal_setTables_alike (c : FaultCause) (w : Word) :
    AnsweredAlike (.next (raiseFatal c w s)) (.next (raiseFatal c w (s.setTables antilog log))) := by
  have hnf : s.state ≠ .fault := by simp [hs]
  rw [raiseFatal_of_not_fault hnf, raiseFatal_of_not_fault (s := s.setTables antilog log) hnf]
  exact ⟨_, _, rfl, rfl, rfl, rfl⟩

/-- A field operation in EMPTY is `Fatal(NOT_READY)`, before any table is read. -/
theorem fieldOp_setTables_alike (w : Word) (r r' : State) :
    AnsweredAlike (fieldOp w s r) (fieldOp w (s.setTables antilog log) r') := by
  rw [fieldOp_empty hs, fieldOp_empty (s := s.setTables antilog log) hs]
  exact raiseFatal_setTables_alike hs antilog log _ w

/-- A catalog operation in EMPTY, from its results on the entry that the index selects. -/
theorem catalogOp_setTables_alike (w : Word) (k : Byte) {r r' : CatEntry → State}
    (hr : ∀ e, (r e).pending = (r' e).pending ∧ (r e).state = (r' e).state) :
    AnsweredAlike (catalogOp w k s r) (catalogOp w k (s.setTables antilog log) r') := by
  have hnf : s.state ≠ .fault := by simp [hs]
  cases he : catalogEntry s.config k with
  | some e => exact ⟨_, _, catalogOp_valid hnf he w r, catalogOp_valid (s := s.setTables antilog log) hnf he w r', hr e⟩
  | none =>
    rw [catalogOp_invalid hnf he, catalogOp_invalid (s := s.setTables antilog log) hnf he]
    exact raiseFatal_setTables_alike hs antilog log _ w

/-- Every command in EMPTY answers alike whatever the tables hold. -/
theorem exec_setTables_alike (i : Instr) : AnsweredAlike (exec i s) (exec i (s.setTables antilog log)) := by
  cases i with
  | qstat | qfcmd => exact ⟨_, _, rfl, rfl, rfl, rfl⟩
  | build k => exact catalogOp_setTables_alike hs antilog log _ k fun e => ⟨rfl, by simp⟩
  | clmul | catval | catgen => exact catalogOp_setTables_alike hs antilog log _ _ fun e => ⟨rfl, rfl⟩
  | _ => exact fieldOp_setTables_alike hs antilog log _ _ _

/-- Every command word in EMPTY is answered alike whatever the tables hold. -/
theorem runWord_setTables_alike (w : Word) : AnsweredAlike (runWord w s) (runWord w (s.setTables antilog log)) := by
  cases hd : decodeWord w with
  | ok i => rw [runWord_of_ok hd, runWord_of_ok hd]; exact exec_setTables_alike hs antilog log i
  | error e =>
    rw [runWord_of_error hd, runWord_of_error hd, rejectWord_eq_raiseFatal, rejectWord_eq_raiseFatal]
    exact raiseFatal_setTables_alike hs antilog log _ w

end

/-! ## BUILD rewrites every entry that a command can read -/

/-- After a BUILD of a primitive entry, LOG[1..255] does not depend on the tables before. -/
theorem builtLog_read_eq {e : CatEntry} (he : PrimitiveGen e) {s u : State} (hs : TablesCanonical s)
    (hu : TablesCanonical u) {x : Nat} (hx : x < 256) (h0 : x ≠ 0) : (builtLog e s).read x = (builtLog e u).read x := by
  obtain ⟨b, hb, rfl⟩ := exists_byte_of_ne_zero hx h0
  obtain ⟨i, hi, rfl⟩ := he b hb
  rw [builtLog_power he hs hi, builtLog_power he hu hi]

/-- Settles O16: the values of `State.resetWith`, and the tables hidden in EMPTY and rewritten by BUILD. -/
theorem resetStateHasResetValues : Obligations.ResetStateHasResetValues := by
  refine ⟨fun s hs => ?_, fun s antilog log w hs => runWord_setTables_alike hs antilog log w,
    fun s antilog log k hs hwf hk hcanon hcanon' => ?_⟩
  · obtain ⟨c, rfl⟩ : ∃ c, s = State.resetWith c := hs.elim (fun h => ⟨_, h⟩) id
    exact ⟨rfl, rfl, rfl, rfl, rfl, rfl, rfl, statusData_resetWith c ▸ answers_qstat _⟩
  · obtain ⟨e, he⟩ : ∃ e, catalogEntry s.config k = some e := ⟨_, catalogEntry_eq_some.2 ⟨hk, rfl⟩⟩
    have hnf : s.state ≠ .fault := by simp [hs]
    refine ⟨_, _, exec_build_valid hnf he, exec_build_valid (s := s.setTables antilog log) hnf he,
      fun i hi => ?_, fun x hx h0 => ?_⟩
    · rw [respond_antilog, respond_antilog, buildField_antilog, buildField_antilog, builtAntilog_read hcanon e hi]
      exact (builtAntilog_read hcanon' e hi).symm
    · rw [respond_log, respond_log, buildField_log, buildField_log]
      exact builtLog_read_eq (catalogEntry_wf hwf he).primitive hcanon hcanon' hx h0

end Sys2Proof.Machine
end

section
/-! PROOFS. Decoding and encoding are inverse, and words of the spec (30_encoding.md sections 2, 3 and 6). -/
namespace Sys2Proof.Machine

/-- The bytes of a word decode as the word does. -/
theorem decodeBytes_bytesOfWord (w : Word) : decodeBytes (bytesOfWord w) = some (decodeWord w) :=
  congrArg (fun w => some (decodeWord w)) (bytes_append w)

/-- Settles O1, from the decoder on encoded commands; the bytes of a word put together are the word. -/
theorem decodeInvertsEncode : Obligations.DecodeInvertsEncode :=
  fun i => ⟨decodeWord_encode i, by rw [decodeBytes_bytesOfWord, decodeWord_encode]⟩

/-- Settles O2: the checked bits and the fields of a word are all of its bits. -/
theorem encodeInvertsDecode : Obligations.EncodeInvertsDecode := fun _ _ => encode_of_decodeWord

/-- Settles O4, by running the decoder on each word. -/
theorem specWordsDecode : Obligations.SpecWordsDecode := by
  unfold Obligations.SpecWordsDecode
  decide

end Sys2Proof.Machine
end

section
/-! PROOFS. Every step keeps the invariant of the engine (10_state.md sections 2 to 5). -/
namespace Sys2Proof.Machine

/-! ## A command that reset cuts short -/

/-- A reset during a command cuts a BUILD of a valid index short, accepted outside FAULT, or finds nothing to cut
(70_reset_and_hazards.md R702). -/
theorem cutShort_cases (n : Nat) (x : HostInput) (s : State) :
    cutShort n x s = s ∨
    ∃ k e, x.cmd = some (encode (.build k)) ∧ cmdReady x s = true ∧ catalogEntry s.config k = some e ∧
      cutShort n x s = partialBuild e n s := by
  unfold cutShort
  cases hx : x.cmd with
  | none => exact .inl rfl
  | some w =>
    by_cases hready : cmdReady x s = true ∧ s.state ≠ .fault
    · simp only [if_pos hready]
      split
      next k hd =>
        obtain rfl := encode_of_decodeWord hd
        cases he : catalogEntry s.config k with
        | none => exact .inl rfl
        | some e => exact .inr ⟨k, e, rfl, hready.1, he, rfl⟩
      next => exact .inl rfl
    · exact .inl (if_neg hready)

/-- A command that reset cuts short leaves canonical tables. -/
theorem cutShort_canonical (n : Nat) (x : HostInput) {s : State} (h : TablesCanonical s) :
    TablesCanonical (cutShort n x s) := by
  obtain hsame | ⟨k, e, -, -, -, hcut⟩ := cutShort_cases n x s
  · rwa [hsame]
  · rw [hcut]
    exact partialBuild_canonical e n h

/-! ## The invariant, part by part -/

/-- Right after reset, by the port or at power-on, the invariant asks only for canonical tables. -/
theorem State.Inv.of_applyReset {s : State} (h : TablesCanonical s) : (applyReset s).Inv where
  canonical := h
  registers :=
    { busy := rfl
      sel := (by decide : (0x00 : Byte).toNat < nCatalog)
      cause := by simp
      noExpRange := by simp
      cmd := fun _ => rfl }
  response := by constructor <;> (intro d hd; cases hd)
  built := TablesBuilt.of_not_ready (by simp)

/-- Between two states of the same engine only the pending response is left to check. -/
theorem State.Inv.of_sameEngine {s t : State} (h : s.Inv) (hst : SameEngine s t) (hr : ResponseLegal t) : t.Inv where
  canonical := h.canonical.of_tables_eq hst.antilog hst.log
  registers :=
    { busy := hst.busy ▸ h.registers.busy
      sel := hst.sel ▸ h.registers.sel
      cause := by rw [hst.state, hst.faultCause]; exact h.registers.cause
      noExpRange := hst.faultCause ▸ h.registers.noExpRange
      cmd := by rw [hst.state, hst.faultCmd]; exact h.registers.cmd }
  response := hr
  built := h.built.of_eq hst.state hst.sel hst.config hst.antilog hst.log

/-- Without a pending response there is nothing to check of it. -/
theorem ResponseLegal.of_none {s : State} (h : s.pending = none) : ResponseLegal s := by
  constructor <;> (intro d hd; rw [h] at hd; cases hd)

/-- A FATAL response is legal in FAULT, with the cause as data (30_encoding.md R322). -/
theorem ResponseLegal.of_fatal {s : State} (hs : s.state = .fault)
    (h : s.pending = some ⟨.fatal, zext32 s.faultCause.code⟩) : ResponseLegal s := by
  constructor <;> (intro d hd; rw [h] at hd; cases hd)
  exact ⟨hs, rfl⟩

/-- A response that is not FATAL is legal when a recoverable failure comes from READY with data 0 (60_exceptions.md R603). -/
theorem ResponseLegal.of_respond {s : State} {st : Status} {d : Word} (hst : st ≠ .fatal)
    (h : st ≠ .ok → s.state = .ready ∧ d = 0x00000000) : ResponseLegal (respond st d s) where
  fatal _ hd := by cases hd; exact absurd rfl hst
  undefined _ hd := by cases hd; exact h (by decide)
  divByZero _ hd := by cases hd; exact h (by decide)

/-- The response transfer and the samples to come keep a legal response. -/
theorem transferResponse_legal (x : HostInput) (rest : List HostInput) {s : State} (h : ResponseLegal s) :
    ResponseLegal (transferResponse x (s.setInputs rest)) := by
  unfold transferResponse
  split
  · exact .of_none rfl
  · exact ⟨h.fatal, h.undefined, h.divByZero⟩

section
variable {s : State} (h : s.Inv)
include h

/-- Fatal entry keeps the invariant: FAULT and the cause are written together (60_exceptions.md R610). -/
theorem State.Inv.raiseFatal {c : FaultCause} (hc : c ≠ .noCause ∧ c ≠ .expRange) (hs : s.state ≠ .fault) (w : Word) :
    (raiseFatal c w s).Inv := by
  rw [raiseFatal_of_not_fault hs]
  exact
    { canonical := h.canonical
      registers :=
        { busy := h.registers.busy
          sel := h.registers.sel
          cause := by simp [hc.1]
          noExpRange := hc.2
          cmd := fun hn => absurd rfl hn }
      response := .of_fatal rfl rfl
      built := .of_not_ready (by simp) }

/-- A BUILD that succeeds keeps the invariant: the tables it writes are those of the index it selects (41_build.md R421). -/
theorem State.Inv.buildField {k : Byte} {e : CatEntry} (hs : s.state ≠ .fault)
    (he : catalogEntry s.config k = some e) : (respond .ok 0x00000000 (buildField k e s)).Inv where
  canonical := buildField_canonical k e h.canonical
  registers :=
    { busy := by simp
      sel := by simpa using (catalogEntry_eq_some.1 he).1
      cause := by simp [h.registers.faultCause_of_not_fault hs]
      noExpRange := by simpa using h.registers.noExpRange
      cmd := fun _ => by simpa using h.registers.cmd hs }
  response := .of_respond (by decide) fun hok => absurd rfl hok
  built := (buildField_built h.canonical he).of_eq rfl rfl rfl rfl rfl

/-- Every accepted word keeps the invariant. -/
theorem State.Inv.runWord {w : Word} {t : State} (hrun : runWord w s = .next t) : t.Inv := by
  cases runWord_cases hrun with
  | refused hs => exact h.of_sameEngine (respond_sameEngine _ _ s) (.of_fatal hs rfl)
  | fatal c hc hs => exact h.raiseFatal hc hs w
  | built k e _ hs he => exact h.buildField hs he
  | answered st d hst hok => exact h.of_sameEngine (respond_sameEngine st d s) (.of_respond hst hok)

/-- The samples to come do not matter to the invariant. -/
theorem State.Inv.setInputs (rest : List HostInput) : (s.setInputs rest).Inv :=
  h.of_sameEngine ⟨rfl, rfl, rfl, rfl, rfl, rfl, rfl, rfl⟩ ⟨h.response.fatal, h.response.undefined, h.response.divByZero⟩

end

/-! ## The invariant at reset and over a step -/

/-- Settles O48, case by case of everything a step can do. -/
theorem stepKeepsInvariant : Obligations.StepKeepsInvariant := by
  intro s t h hstep
  obtain ⟨-, rfl⟩ | ⟨x, rest, -, hcase⟩ := step_cases hstep
  · exact h
  · obtain ⟨-, rfl⟩ | ⟨n, -, rfl⟩ | ⟨w, -, -, -, hrun⟩ | ⟨-, -, rfl⟩ := hcase
    · exact .of_applyReset h.canonical
    · exact .of_applyReset (cutShort_canonical n x h.canonical)
    · exact (h.setInputs rest).runWord hrun
    · exact h.of_sameEngine (transferResponse_sameEngine x rest s) (transferResponse_legal x rest h.response)

/-- Settles O47: the state at power-on is its own reset, and the empty tables are canonical. -/
theorem resetEstablishesInvariant : Obligations.ResetEstablishesInvariant := by
  have hinv (c : Config) : (State.resetWith c).Inv :=
    .of_applyReset (s := State.resetWith c) ⟨Memory.wf_nil _, Memory.wf_nil _⟩
  exact ⟨hinv _, hinv⟩

end Sys2Proof.Machine
end

section
/-! PROOFS. Who writes the tables, a BUILD cut short by reset, and the constant parameters (10_state.md R111;
20_memory.md section 5; 70_reset_and_hazards.md R702). -/
namespace Sys2Proof.Machine

/-! ## The parameters -/

/-- An accepted word keeps the parameters. -/
theorem runWord_config {w : Word} {s t : State} (h : runWord w s = .next t) : t.config = s.config := by
  cases runWord_cases h with
  | refused | answered => rfl
  | fatal c _ hs => rw [raiseFatal_of_not_fault hs]
  | built => simp

/-- Settles O46, case by case of everything a step can do. -/
theorem parametersAreConstant : Obligations.ParametersAreConstant := by
  intro s t h
  obtain ⟨-, rfl⟩ | ⟨x, rest, -, hcase⟩ := step_cases h
  · rfl
  · obtain ⟨-, rfl⟩ | ⟨n, -, rfl⟩ | ⟨w, -, -, -, hrun⟩ | ⟨-, -, rfl⟩ := hcase
    · rfl
    · obtain ⟨antilog, log, htables⟩ := cutShort_eq_setTables n x (s.setInputs rest)
      rw [htables]
      rfl
    · exact runWord_config (s := s.setInputs rest) hrun
    · exact (transferResponse_sameEngine x rest s).config

/-! ## The tables -/

/-- An accepted word that is no BUILD of a valid index outside FAULT keeps both tables. -/
theorem runWord_tables {w : Word} {s t : State} (h : runWord w s = .next t)
    (hw : ∀ k : Byte, w = encode (.build k) → s.state = .fault ∨ nCatalog ≤ k.toNat) :
    t.antilog = s.antilog ∧ t.log = s.log := by
  cases runWord_cases h with
  | refused | answered => exact ⟨rfl, rfl⟩
  | fatal c _ hs => rw [raiseFatal_of_not_fault hs]; exact ⟨rfl, rfl⟩
  | built k e hk hs he =>
    have hnone : catalogEntry s.config k = none := catalogEntry_eq_none.2 ((hw k hk).resolve_left hs)
    rw [hnone] at he; cases he

/-- Settles O45: a step writes the tables only by an accepted BUILD, whole or cut short. -/
theorem onlyBuildWritesTables : Obligations.OnlyBuildWritesTables := by
  refine ⟨fun _ _ _ => runWord_tables, fun s t x rest hin h hx => ?_⟩
  obtain ⟨hnil, -⟩ | ⟨y, rest', hin', hcase⟩ := step_cases h
  · rw [hin] at hnil; cases hnil
  · rw [hin] at hin'
    cases hin'
    have hno (hr : x.rst ≠ .asserted) (hready : cmdReady x s = true) : ∀ k, x.cmd ≠ some (encode (.build k)) :=
      (hx.resolve_left hr).resolve_left (by simp [hready])
    obtain ⟨-, rfl⟩ | ⟨n, hr, rfl⟩ | ⟨w, hr, hw, hready, hrun⟩ | ⟨-, -, rfl⟩ := hcase
    · exact ⟨rfl, rfl⟩
    · obtain hsame | ⟨k, e, hk, hready, -, -⟩ := cutShort_cases n x (s.setInputs rest)
      · rw [hsame]; exact ⟨rfl, rfl⟩
      · exact absurd hk (hno (by simp [hr]) hready k)
    · exact runWord_tables (s := s.setInputs rest) hrun fun k hk => absurd (hk ▸ hw) (hno (by simp [hr]) hready k)
    · exact ⟨(transferResponse_sameEngine x rest s).antilog, (transferResponse_sameEngine x rest s).log⟩

/-! ## A BUILD cut short -/

/-- Reset during an accepted BUILD of a valid index leaves the writes of the loop iterations done. -/
theorem cutShort_build {x : HostInput} {s : State} {k : Byte} {e : CatEntry} (hx : x.cmd = some (encode (.build k)))
    (hready : cmdReady x s = true) (hs : s.state ≠ .fault) (he : catalogEntry s.config k = some e) (n : Nat) :
    cutShort n x s = partialBuild e n s := by
  simp only [cutShort, hx, decodeWord_encode, he, if_pos (And.intro hready hs)]

/-- The walk's iterations that were done have written the powers of the generator. -/
theorem partialBuild_antilog_written (e : CatEntry) {s : State} (h : TablesCanonical s) {n i : Nat} (hi : i < min n 255) :
    (partialBuild e n s).antilog.read i = genPow e i := by
  have hn : min n 255 ≤ antilogSize := le_trans (Nat.min_le_right _ _) (by decide)
  unfold partialBuild
  rw [State.setTables_antilog, copyBack_other _ (.inl (lt_of_lt_of_le hi (Nat.min_le_right _ _))),
    walk_antilog e h.1 h.2 hn hi]

/-- The entries of the first period that the walk has not reached are kept. -/
theorem partialBuild_antilog_kept (e : CatEntry) (s : State) {n i : Nat} (hi : min n 255 ≤ i) (hlow : i < 255) :
    (partialBuild e n s).antilog.read i = s.antilog.read i := by
  unfold partialBuild
  rw [State.setTables_antilog, copyBack_other _ (.inl hlow), walk_antilog_other e _ _ hi]

/-- Settles O15, from the tables of the partial BUILD under the reset. -/
theorem resetCutsBuildShort : Obligations.ResetCutsBuildShort := by
  intro s x rest k e n hcanon hin hr hx hready hs he
  have hstep : step s = .next (applyReset (partialBuild e n (s.setInputs rest))) := by
    rw [step_of_inputs hin, ← cutShort_build (s := s.setInputs rest) hx hready hs he]
    simp only [stepInput, hr]
  exact ⟨_, hstep, rfl, rfl, partialBuild_canonical e n (s := s.setInputs rest) hcanon,
    fun i hi => partialBuild_antilog_written e (s := s.setInputs rest) hcanon hi,
    fun i => partialBuild_antilog_kept e (s.setInputs rest)⟩

end Sys2Proof.Machine
end

section
/-! PROOFS. The table indices of the field operations, and where the field operations run (20_memory.md section 4;
42_field_ops.md sections 1 and 6). -/
namespace Sys2Proof.Machine

/-- In a built field only 1 has the log 0. -/
theorem FieldBuilt.logOf_eq_zero {s : State} {e : CatEntry} (h : FieldBuilt s e) {a : Byte} (ha : a ≠ 0x00) :
    (logOf s a).toNat = 0 ↔ a = 0x01 := by
  constructor
  · intro hlog
    rw [← h.genPow_logOf ha, hlog]
    rfl
  · rintro rfl
    have hone : logOf s 0x01 = BitVec.ofNat 8 0 := h.log_genPow (i := 0) (by decide)
    rw [hone]
    rfl

/-- Settles O51: a log is at most 255 in every state, and at most 254 in a built field. -/
theorem tableIndicesStayInRange : Obligations.TableIndicesStayInRange := by
  unfold Obligations.TableIndicesStayInRange antilogSize mulIndex divIndex invIndex powIndex
  refine ⟨fun la lb n => ⟨by omega, Nat.mod_lt _ (by decide), by omega, Nat.mod_lt _ (by decide), la.isLt⟩,
    fun s e h a b ha hb => ?_⟩
  have hla : (logOf s a).toNat < 255 := h.log_lt ha
  have hlb : (logOf s b).toNat < 255 := h.log_lt hb
  exact ⟨by omega, by omega, by omega, Iff.trans (by omega) (h.logOf_eq_zero ha)⟩

/-- Settles O25, from what every command that needs READY does outside it; in READY it answers or fails recoverably. -/
theorem fieldOperationsNeedReady : Obligations.FieldOperationsNeedReady := by
  refine fun i s hi => ⟨(fieldCommand hi rfl).inEmpty s, (fieldCommand hi rfl).inFault s, fun hs => ?_⟩
  obtain ⟨t, ht⟩ := exec_isNext i s
  cases exec_cases ht with
  | refused hf | notReady hf => rw [hs] at hf; cases hf
  | invalidIndex _ _ hx => rw [needsReady_of_indexOperand hx] at hi; cases hi
  | built _ _ hb => subst hb; cases hi
  | failed st _ hr => exact ⟨st, _, recoverableFailure_ne_fatal hr, ht⟩
  | answered d => exact ⟨.ok, d, by decide, ht⟩

/-- Settles O7: the offered word is accepted and decodes to the command. -/
theorem stepRunsDecodedCommand : Obligations.StepRunsDecodedCommand := by
  intro s x rest w i hin hr hw hbusy hpending hd
  have hready : cmdReady x s = true := cmdReady_iff.2 ⟨by simp [hr], hbusy, hpending⟩
  rw [step_accepted hin hr hw hready, runWord_of_ok hd]
  rfl

end Sys2Proof.Machine
end

section
/-! PROOFS. The assembler (30_encoding.md R340): a literal that fits gives the command's word, a larger one is refused. -/
namespace Sys2Proof.Machine

/-- An 8-bit literal. -/
theorem literal8_eq (n : Nat) : literal8 n = if n < 256 then some (BitVec.ofNat 8 n) else none := by
  simp [literal8, fitsByte]

/-- A 16-bit literal. -/
theorem literal16_eq (n : Nat) : literal16 n = if n < 65536 then some (BitVec.ofNat 16 n) else none := by
  simp [literal16, fitsHalf]

/-- A 32-bit literal. -/
theorem literal32_eq (n : Nat) : literal32 n = if n < 2 ^ 32 then some (BitVec.ofNat 32 n) else none := by
  simp [literal32, fitsWord]

/-- A command with one 8-bit operand. -/
theorem assemble1_eq (command : Byte → Instr) (a : Nat) :
    assemble1 command a = if a < 256 then some (encode (command (BitVec.ofNat 8 a))) else none := by
  rw [assemble1, literal8_eq]
  split_ifs <;> rfl

/-- A command with two 8-bit operands. -/
theorem assemble2_eq (command : Byte → Byte → Instr) (a b : Nat) :
    assemble2 command a b =
      if a < 256 ∧ b < 256 then some (encode (command (BitVec.ofNat 8 a) (BitVec.ofNat 8 b))) else none := by
  rw [assemble2, literal8_eq, literal8_eq, ite_and]
  split_ifs <;> rfl

/-- A line of POW. -/
theorem assemble_pow (a n : Nat) : assemble ⟨.pow, [a, n]⟩ =
    if a < 256 ∧ n < 65536 then some (encode (.pow (BitVec.ofNat 8 a) (BitVec.ofNat 16 n))) else none := by
  have hdef : assemble ⟨.pow, [a, n]⟩ = (literal8 a).bind fun a => (literal16 n).map fun n => encode (.pow a n) := rfl
  rw [hdef, literal8_eq, literal16_eq, ite_and]
  split_ifs <;> rfl

/-- A line of CLMUL. -/
theorem assemble_clmul (a b k : Nat) : assemble ⟨.clmul, [a, b, k]⟩ =
    if a < 256 ∧ b < 256 ∧ k < 256 then
      some (encode (.clmul (BitVec.ofNat 8 a) (BitVec.ofNat 8 b) (BitVec.ofNat 8 k))) else none := by
  have hdef : assemble ⟨.clmul, [a, b, k]⟩ = (literal8 k).bind fun k => assemble2 (fun a b => .clmul a b k) a b := rfl
  rw [hdef, literal8_eq]
  by_cases hk : k < 256
  · rw [if_pos hk]
    exact (assemble2_eq _ a b).trans (if_congr (by simp [hk]) rfl rfl)
  · rw [if_neg hk, if_neg fun ⟨_, _, hk'⟩ => hk hk']
    rfl

/-- Settles O6: the lines by their operands, and the spec's three texts by running the parser and the assembler. -/
theorem assemblerEncodesOrRefuses : Obligations.AssemblerEncodesOrRefuses := by
  refine ⟨fun p hp a => ?_, fun p hp a b => ?_, assemble_pow, assemble_clmul, literal32_eq, rfl, rfl, rfl, ?_, ?_, ?_⟩
  · rw [← assemble1_eq]
    simp only [List.mem_cons, List.not_mem_nil, or_false] at hp
    obtain rfl | rfl | rfl | rfl | rfl | rfl := hp <;> rfl
  · rw [← assemble2_eq]
    simp only [List.mem_cons, List.not_mem_nil, or_false] at hp
    obtain rfl | rfl | rfl | rfl := hp <;> rfl
  · decide
  · decide
  · decide

end Sys2Proof.Machine
end
